-- ==== Sys2Proof/Word.lean ====
section
/-! DEFINITION. The two word types of CORE: the 32-bit register word (R7, R8) and the 8-bit byte of the LINK channel (R8). -/

namespace Sys2Proof

/-- `u32` of R8: what one register access carries (R60) and what `value`, `limit` and `autoReloadValue` hold (R10). -/
abbrev Word := BitVec 32

/-- `u8` of R8: one unit of the LINK byte channel (R43, R70). Its `+` is the `+8` of R8 (addition modulo 256). -/
abbrev Byte := BitVec 8

end Sys2Proof
end

