-- ==== Sys2Proof/Config.lean ====
section
/-! DEFINITION. What is fixed when CORE is built (R7, R35): the parameters the spec leaves OPEN, as constants with no body, and the count direction. -/

namespace Sys2Proof.Config

/-- The OPEN parameter behind `INITIAL_LIMIT` (R7, D1): any natural number, no body, so no proof can see which. Log entry 4. -/
opaque initialLimitChoice : Nat

/-- `INITIAL_LIMIT` (R7): what `limit` and `autoReloadValue` take at reset, an integer in 1 to 2^32 - 1 (D1). Every value of
that range comes from some `initialLimitChoice`, and no other value does. Log entry 4. -/
def initialLimit : Word := BitVec.ofNat 32 (initialLimitChoice % (2 ^ 32 - 1) + 1)

/-- `TIMER_BASE` (R7, D18): the bus address of TIMER's offset 0. OPEN, no body; CORE itself sees offsets only. Log entry 19. -/
opaque timerBase : Word

/-- The count directions the forced event's check tells apart (R148). -/
inductive Direction where
  | ascending
  | descending
  deriving DecidableEq, Repr

/-- `direction` is the constant `Ascending` (R7, R21); no register reads or writes it. Log entry 17. -/
def direction : Direction := .ascending

end Sys2Proof.Config
end

