-- ==== Sys2Proof/Syntax.lean ====
section
/-! DEFINITION. The operation set of CORE (R76), one constructor per row of spec/opcode_table.json, and the form in which an
operation arrives at CORE's boundary before it is decoded (R5, R60, R77). -/

namespace Sys2Proof

/-- The 22 operations of R76. Register writes carry the written word `w` (R60); the two unmapped rows carry the offset. -/
inductive Instr where
  /-- RD_CONTROL1, R110. -/
  | rdControl1
  /-- WR_CONTROL1, R111. -/
  | wrControl1 (w : Word)
  /-- RD_DIER, R112. -/
  | rdDier
  /-- WR_DIER, R113. -/
  | wrDier (w : Word)
  /-- RD_STATUS, R114. -/
  | rdStatus
  /-- WR_STATUS, R115. -/
  | wrStatus (w : Word)
  /-- RD_EVENTGEN, R116. -/
  | rdEventgen
  /-- WR_EVENTGEN, R117. -/
  | wrEventgen (w : Word)
  /-- RD_COUNTER, R118. -/
  | rdCounter
  /-- WR_COUNTER, R119. -/
  | wrCounter (w : Word)
  /-- RD_PRESCALER, R120. -/
  | rdPrescaler
  /-- WR_PRESCALER, R121. -/
  | wrPrescaler (w : Word)
  /-- RD_AUTORELOAD, R122. -/
  | rdAutoreload
  /-- WR_AUTORELOAD, R123. -/
  | wrAutoreload (w : Word)
  /-- RD_UNMAPPED, R181: a bus read at an offset that is none of the seven. -/
  | rdUnmapped (off : Word)
  /-- WR_UNMAPPED, R181: a bus write at an offset that is none of the seven; the written word is dropped. -/
  | wrUnmapped (off : Word) (w : Word)
  /-- TICK, R141. -/
  | tick
  /-- RESET_TIMER, R210. -/
  | resetTimer
  /-- INGEST, R161. -/
  | ingest (b : Byte)
  /-- FRAME_SCAN, R167: how an INGEST that completes a frame with command byte 0x20 ends. -/
  | frameScan
  /-- FRAME_ECHO, R168: how an INGEST that completes a frame with any other command byte ends. -/
  | frameEcho
  /-- RESET_LINK, R211. -/
  | resetLink
  deriving DecidableEq, Repr

/-- One invocation as it stands at CORE's boundary (R5). A bus access still carries how many bytes wide it is (`MemRead(addr, n)`
of R9); only four-byte accesses exist for CORE (R42), and decoding says so. -/
inductive PortInput where
  /-- `RegRead(off)`, the access `bytes` bytes wide. -/
  | busRead (bytes : Nat) (off : Word)
  /-- `RegWrite(off, w)`, the access `bytes` bytes wide. -/
  | busWrite (bytes : Nat) (off : Word) (w : Word)
  /-- `Tick()`. -/
  | tickSignal
  /-- `ResetTimer()`. -/
  | timerResetSignal
  /-- `Ingest(b)`. -/
  | byteIn (b : Byte)
  /-- `ResetLink()`. -/
  | linkResetSignal
  deriving DecidableEq, Repr

/-- What selects an operation (the selector column of R76): an invocation at a port, or the command byte of a completed frame
(format `FRAME_CMD` of R77). -/
inductive Encoded where
  | port (p : PortInput)
  | frameCommand (command : Byte)
  deriving DecidableEq, Repr

/-- The seven mapped registers of TIMER (R41). -/
inductive Reg where
  | control1
  | dier
  | status
  | eventgen
  | counter
  | prescaler
  | autoreload
  deriving DecidableEq, Repr

end Sys2Proof
end

