-- ==== Sys2Proof/Machine/State.lean ====
section
/-! DEFINITION. The state of CORE as plain data: TIMER (R10), LINK (R26), and the model's own record of the ports (what has been
invoked and not yet run, what has been emitted and reported). Also the reasons a step can stop, and the state after reset. -/

namespace Sys2Proof.Machine

/-- `mode` (R17). -/
inductive Mode where
  | periodic
  | oneShot
  deriving DecidableEq, Repr

/-- TIMER (R10), every variable but the constant `direction` (R21), which is `Config.direction`. -/
structure Timer where
  /-- The counter (R11). -/
  value : Word
  /-- Ticks counted since the last increment of `value` (R12); an integer below `divider`. -/
  presc : Nat
  /-- Ticks per increment (R13); an integer in 1 to 2^32. -/
  divider : Nat
  /-- The active limit (R14). -/
  limit : Word
  /-- What is copied into `limit` at a limit event (R15). -/
  autoReloadValue : Word
  /-- Enabled or Disabled (R16). -/
  enabled : Bool
  /-- R18. -/
  updateDisable : Bool
  /-- R18. -/
  updateRequestSource : Bool
  /-- Periodic or OneShot (R17). -/
  mode : Mode
  /-- R18. -/
  autoReloadPreloadEnable : Bool
  /-- R19. -/
  interruptEnable : Bool
  /-- The latched update flag (R20). -/
  interruptFlag : Bool
  deriving DecidableEq, Repr

/-- LINK (R26). -/
structure Link where
  /-- The ReceiveBuffer, oldest byte first. -/
  rxbuf : List Byte
  /-- The expected total length; `none` is "unbounded". -/
  expected : Option Nat
  deriving DecidableEq, Repr

/-- An output callback that may still be running when an operation is invoked (R28, R54). -/
inductive Callback where
  /-- A consumer of LINK's `onByte`. -/
  | onByte
  /-- A consumer of TIMER's `irq` change notification. -/
  | irqChange
  deriving DecidableEq, Repr

/-- How the last operation ended for its caller (R6): the outcomes other than `refused`. -/
inductive Result where
  /-- `ok` with nothing returned (`RegWrite`, `Tick`, `Ingest`, the resets). -/
  | done
  /-- `ok`, `RegRead` returning its word. -/
  | word (w : Word)
  /-- `UnmappedAccess(off)` (R181): no state change, no data. -/
  | unmappedAccess (off : Word)
  deriving DecidableEq, Repr

/-- An advisory report (R182): an extra output of an `ok` operation. -/
inductive Advisory where
  | configError
  deriving DecidableEq, Repr

/-- One thing CORE gives to the outside (R5), as it is recorded in the order in which it happens (R28, R52). -/
inductive Output where
  /-- `onByte(b)` (R166). -/
  | byte (b : Byte)
  /-- The `irq` line has changed to this level (R28, R185). -/
  | irq (level : Bool)
  /-- An advisory report (R182). -/
  | advisory (a : Advisory)
  /-- A call made from inside an output callback has returned to the consumer with this outcome (R6, R54 case a). -/
  | returned (r : Result)
  deriving DecidableEq, Repr

/-- CORE. The fields after `link` are the model's own record of the ports (log entries 1, 21, 22 and 25); no rule of TIMER or LINK
reads `result` or `outputs` (R28). -/
structure State where
  timer : Timer
  link : Link
  /-- Input operations invoked from outside and not yet run, in the order in which the external agents invoke them (R5, R50). -/
  inputs : List PortInput
  /-- What the consumer of `onByte` will call from inside its coming callbacks, one entry a callback, next first; it calls nothing in a
  callback past the end (R54). -/
  onByteCalls : List (List PortInput)
  /-- The same for the consumer of `irq` change notifications (R54). -/
  irqCalls : List (List PortInput)
  /-- The output callbacks that are running, innermost first (R54). -/
  inside : List Callback
  /-- Whether the platform has connected a consumer to `onByte` (R215). -/
  sinkConnected : Bool
  /-- The outcome of the last operation; `none` before the first. -/
  result : Option Result
  /-- Everything emitted, notified, signalled and returned to a consumer, oldest first. -/
  outputs : List Output
  deriving DecidableEq, Repr

/-- Every byte given to `onByte`, oldest first (R28, R166). -/
def State.sent (s : State) : List Byte := s.outputs.filterMap fun | .byte b => some b | .irq _ => none | .advisory _ => none | .returned _ => none

/-- Every level the `irq` line has changed to, oldest first (R28). -/
def State.irqNotices (s : State) : List Bool :=
  s.outputs.filterMap fun | .byte _ => none | .irq v => some v | .advisory _ => none | .returned _ => none

/-- Every advisory signalled, oldest first (R182). -/
def State.advisories (s : State) : List Advisory :=
  s.outputs.filterMap fun | .byte _ => none | .irq _ => none | .advisory a => some a | .returned _ => none

/-- What stops the machine with a fault: nothing. "No operation is fatal" (R6) and "No condition of CORE stops it" (R180), so this
type is closed with no constructor (log entry 30). -/
inductive Fault where
  deriving DecidableEq, Repr

/-- What the model gives no meaning (outcome `refused` of R6). Every one is safe: the model stops where the block may go on. -/
inductive Refusal where
  /-- An instruction not yet modelled: raised by an arm of `exec` only. Safe. -/
  | notModelled (mnemonic : String)
  /-- TICK while Enabled with `limit = 0` or `value >= limit` (R142, U5): raised by TICK. Safe. -/
  | tickOutsideDomain
  /-- A TIMER operation from inside an `irq` change notification (R54 case b, U10): raised by every TIMER operation. Safe. -/
  | reentrantTimerCall
  /-- INGEST or RESET_LINK from inside `onByte` (R54 case b, U10): raised by those two. Safe. -/
  | reentrantLinkCall
  /-- A frame completes and no consumer of `onByte` is connected (R215, U11): raised by FRAME_SCAN and FRAME_ECHO. Safe. -/
  | sinkAbsent
  /-- FRAME_SCAN or FRAME_ECHO without the completed frame that R167 and R168 name as their operand: raised by those two. Safe. -/
  | noSuchCompletedFrame
  /-- A bus access of `bytes` bytes, not four (R42, U4): raised by `fetch`, and where a consumer's calls are run. Safe. -/
  | accessWidth (bytes : Nat)
  deriving DecidableEq, Repr

/-- TIMER after construction and after `ResetTimer()` (R34, R213). -/
def Timer.powerOn : Timer :=
  { value := 0, presc := 0, divider := 1, limit := Config.initialLimit, autoReloadValue := Config.initialLimit,
    enabled := false, updateDisable := false, updateRequestSource := false, mode := .periodic,
    autoReloadPreloadEnable := false, interruptEnable := false, interruptFlag := false }

/-- LINK after construction and after `ResetLink()` (R34, R213). -/
def Link.powerOn : Link := { rxbuf := [], expected := none }

/-- CORE right after reset (R34, R213): both units at their reset values, nothing invoked, nothing emitted, the sink connected, its
consumers calling nothing. -/
def State.reset : State :=
  { timer := Timer.powerOn, link := Link.powerOn, inputs := [], onByteCalls := [], irqCalls := [], inside := [],
    sinkConnected := true, result := none, outputs := [] }

end Sys2Proof.Machine
end

