-- ==== Sys2Proof/Machine/Flags.lean ====
section
/-! DEFINITION. The one status flag and the interrupt line (60_exceptions.md section 2): when `interruptFlag` is set, and `irq` as a
pure function of flag and enable. -/

namespace Sys2Proof.Machine

/-- The interrupt line: "at all times `irq = interruptFlag AND interruptEnable`" (R185; log entry 10). -/
def Timer.irq (t : Timer) : Bool := t.interruptFlag && t.interruptEnable

/-- The output `irq` of CORE, a level derived from the state (R22). -/
def State.irq (s : State) : Bool := s.timer.irq

/-- "if `interruptEnable` is set, `interruptFlag` becomes true", and otherwise the flag is left as it was (R144, R147, R187). -/
def Timer.raiseFlag (t : Timer) : Timer := if t.interruptEnable then { t with interruptFlag := true } else t

end Sys2Proof.Machine
end

