-- ==== Sys2Proof/Machine/Counting.lean ====
section
/-! DEFINITION. Counting (42_timer_counting.md): the limit event, the tick, the forced event, and TIMER's reset, as pure functions
on `Timer`. -/

namespace Sys2Proof.Machine

/-- The limit event, in the order of R143: the counter returns to 0 (R143), a one-shot timer stops (R145), and unless
`updateDisable` is set the limit is reloaded and the flag raised (R144). Log entries 8 and 9. -/
def Timer.limitEvent (t : Timer) : Timer :=
  let wrapped : Timer := { t with value := 0 }
  let stopped : Timer := if t.mode = .oneShot then { wrapped with enabled := false } else wrapped
  if t.updateDisable then stopped
  else Timer.raiseFlag { stopped with limit := stopped.autoReloadValue }

/-- An Enabled tick inside the domain (R141, from the third line on). -/
def Timer.advance (t : Timer) : Timer :=
  if t.divider ≤ t.presc + 1 then
    let up : Timer := { t with presc := 0, value := t.value + 1 }
    if up.value = t.limit then up.limitEvent else up
  else { t with presc := t.presc + 1 }

/-- Where R142 refuses an Enabled tick: `limit = 0` or `value >= limit`. -/
def Timer.pastLimit (t : Timer) : Bool := t.limit == 0 || t.limit.toNat ≤ t.value.toNat

/-- TICK (R141): nothing while Disabled (R152), no meaning outside the domain (R142), else one counted tick. -/
def Timer.tick (t : Timer) : Option Timer :=
  if !t.enabled then some t
  else if t.pastLimit then none
  else some t.advance

/-- The forced event (R147) for a count direction: ignored under `updateDisable`; skipped with one ConfigError where the direction
is not Ascending (R148, R182); else counter and phase to 0 and, unless `updateRequestSource`, the flag raised. -/
def Timer.forcedEvent (d : Config.Direction) (t : Timer) : Timer × List Advisory :=
  if t.updateDisable then (t, [])
  else if d ≠ .ascending then (t, [.configError])
  else
    let zeroed : Timer := { t with value := 0, presc := 0 }
    (if t.updateRequestSource then zeroed else zeroed.raiseFlag, [])

/-- WR_EVENTGEN's effect (R117): a written 1 in bit 0 triggers the forced event, a written 0 does nothing (log entry 11). -/
def Timer.writeEventgen (t : Timer) (w : Word) : Timer × List Advisory :=
  if w.getLsbD 0 then Timer.forcedEvent Config.direction t else (t, [])

/-- RESET_TIMER's twelve assignments (R210; log entry 5). -/
def Timer.resetAll (t : Timer) : Timer :=
  { t with
    value := 0
    presc := 0
    divider := 1
    limit := Config.initialLimit
    autoReloadValue := Config.initialLimit
    enabled := false
    updateDisable := false
    updateRequestSource := false
    mode := .periodic
    autoReloadPreloadEnable := false
    interruptEnable := false
    interruptFlag := false }

end Sys2Proof.Machine
end

