-- ==== Sys2Proof/WellFormed.lean ====
section
/-! DEFINITION. Which terms of `Instr` stand for an operation of R76: the two unmapped rows take only offsets with no register. -/

namespace Sys2Proof

/-- The seven offsets that name a register (R41); every other offset, aligned or not, is unmapped (R44). -/
def mappedOffsets : List Word := [0x00, 0x0C, 0x10, 0x14, 0x24, 0x28, 0x2C]

/-- An offset with no register (R41, R65). -/
def isUnmapped (off : Word) : Bool := !mappedOffsets.contains off

/-- The check on instructions: rows 15 and 16 of R76 are taken at "any other offset" only; every word may be written to every
register (R65) and every byte value may be ingested (R161). -/
def Instr.wf : Instr → Bool
  | .rdControl1 => true
  | .wrControl1 _ => true
  | .rdDier => true
  | .wrDier _ => true
  | .rdStatus => true
  | .wrStatus _ => true
  | .rdEventgen => true
  | .wrEventgen _ => true
  | .rdCounter => true
  | .wrCounter _ => true
  | .rdPrescaler => true
  | .wrPrescaler _ => true
  | .rdAutoreload => true
  | .wrAutoreload _ => true
  | .rdUnmapped off => isUnmapped off
  | .wrUnmapped off _ => isUnmapped off
  | .tick => true
  | .resetTimer => true
  | .ingest _ => true
  | .frameScan => true
  | .frameEcho => true
  | .resetLink => true

/-- The check on what arrives at the bus port: an access is four bytes wide (R42, R9 "defined for `n = 4` only"). -/
def PortInput.wf : PortInput → Bool
  | .busRead n _ => n == 4
  | .busWrite n _ _ => n == 4
  | .tickSignal => true
  | .timerResetSignal => true
  | .byteIn _ => true
  | .linkResetSignal => true

/-- The same check on a selector. -/
def Encoded.wf : Encoded → Bool
  | .port p => p.wf
  | .frameCommand _ => true

end Sys2Proof
end

