-- ==== Sys2Proof/Decode.lean ====
section
/-! DEFINITION. Encodings (30_encoding.md): the offset rows and command rows of R76/R77 as tables, the decoder from a selector to
an instruction (total, rejecting by name), the frame layout of a byte stream (R70 to R72), the encoder, and the table words of
spec/opcode_table.json. -/

namespace Sys2Proof

/-- One row of the offset table: taken when the offset under `mask` equals `pat` (R77). -/
structure OffsetRow where
  pat : Word
  mask : Word
  reg : Reg
  deriving DecidableEq, Repr

/-- The seven mapped rows of R76, each for reads and for writes; "the whole offset must equal `match`" (R77). -/
def offsetRows : List OffsetRow :=
  [ ⟨0x00, 0xFFFFFFFF, .control1⟩,
    ⟨0x0C, 0xFFFFFFFF, .dier⟩,
    ⟨0x10, 0xFFFFFFFF, .status⟩,
    ⟨0x14, 0xFFFFFFFF, .eventgen⟩,
    ⟨0x24, 0xFFFFFFFF, .counter⟩,
    ⟨0x28, 0xFFFFFFFF, .prescaler⟩,
    ⟨0x2C, 0xFFFFFFFF, .autoreload⟩ ]

/-- An offset taken by a row. -/
def OffsetRow.takes (r : OffsetRow) (off : Word) : Bool := off &&& r.mask == r.pat

/-- The register at an offset, if any (R41). -/
def regAt (off : Word) : Option Reg := (offsetRows.find? (·.takes off)).map (·.reg)

/-- The offset of a register (R41). -/
def offsetOf : Reg → Word
  | .control1 => 0x00
  | .dier => 0x0C
  | .status => 0x10
  | .eventgen => 0x14
  | .counter => 0x24
  | .prescaler => 0x28
  | .autoreload => 0x2C

/-- Bus reads of the mapped registers (R76 rows 1 to 13, odd). -/
def readInstr : Reg → Instr
  | .control1 => .rdControl1
  | .dier => .rdDier
  | .status => .rdStatus
  | .eventgen => .rdEventgen
  | .counter => .rdCounter
  | .prescaler => .rdPrescaler
  | .autoreload => .rdAutoreload

/-- Bus writes of the mapped registers (R76 rows 2 to 14, even). -/
def writeInstr (w : Word) : Reg → Instr
  | .control1 => .wrControl1 w
  | .dier => .wrDier w
  | .status => .wrStatus w
  | .eventgen => .wrEventgen w
  | .counter => .wrCounter w
  | .prescaler => .wrPrescaler w
  | .autoreload => .wrAutoreload w

/-- `RegRead(off)`: the mapped row, else row 15 of R76. -/
def decodeRead (off : Word) : Instr :=
  match regAt off with
  | some r => readInstr r
  | none => .rdUnmapped off

/-- `RegWrite(off, w)`: the mapped row, else row 16 of R76. -/
def decodeWrite (off w : Word) : Instr :=
  match regAt off with
  | some r => writeInstr w r
  | none => .wrUnmapped off w

/-- The one recognised command byte, "scan" (R7, R73). -/
def scanCommand : Byte := 0x20

/-- The `FRAME_CMD` rows of R77 on the command byte: FRAME_SCAN is match 0x20 mask 0xFF, FRAME_ECHO takes every other byte. -/
def decodeCommand (command : Byte) : Instr :=
  if command &&& 0xFF = scanCommand then .frameScan else .frameEcho

/-- Why the decoder refuses a selector. -/
inductive Reject where
  /-- A bus access that is not four bytes wide: no such operation exists at CORE's boundary (R42, U4). -/
  | accessWidth (bytes : Nat)
  deriving DecidableEq, Repr

/-- The decoder, total on every selector. The only rejected ones are bus accesses of another width than four bytes: "The only
illegal encoding of a bus operation is an offset outside the seven" (R65), and that one is rows 15 and 16. -/
def decode : Encoded → Except Reject Instr
  | .port (.busRead n off) => if n = 4 then .ok (decodeRead off) else .error (.accessWidth n)
  | .port (.busWrite n off w) => if n = 4 then .ok (decodeWrite off w) else .error (.accessWidth n)
  | .port .tickSignal => .ok .tick
  | .port .timerResetSignal => .ok .resetTimer
  | .port (.byteIn b) => .ok (.ingest b)
  | .port .linkResetSignal => .ok .resetLink
  | .frameCommand c => .ok (decodeCommand c)

/-- The selector of an instruction, from the same tables (R76, R77). FRAME_ECHO is written with its row's `match`, 0x00. -/
def encode : Instr → Encoded
  | .rdControl1 => .port (.busRead 4 (offsetOf .control1))
  | .wrControl1 w => .port (.busWrite 4 (offsetOf .control1) w)
  | .rdDier => .port (.busRead 4 (offsetOf .dier))
  | .wrDier w => .port (.busWrite 4 (offsetOf .dier) w)
  | .rdStatus => .port (.busRead 4 (offsetOf .status))
  | .wrStatus w => .port (.busWrite 4 (offsetOf .status) w)
  | .rdEventgen => .port (.busRead 4 (offsetOf .eventgen))
  | .wrEventgen w => .port (.busWrite 4 (offsetOf .eventgen) w)
  | .rdCounter => .port (.busRead 4 (offsetOf .counter))
  | .wrCounter w => .port (.busWrite 4 (offsetOf .counter) w)
  | .rdPrescaler => .port (.busRead 4 (offsetOf .prescaler))
  | .wrPrescaler w => .port (.busWrite 4 (offsetOf .prescaler) w)
  | .rdAutoreload => .port (.busRead 4 (offsetOf .autoreload))
  | .wrAutoreload w => .port (.busWrite 4 (offsetOf .autoreload) w)
  | .rdUnmapped off => .port (.busRead 4 off)
  | .wrUnmapped off w => .port (.busWrite 4 off w)
  | .tick => .port .tickSignal
  | .resetTimer => .port .timerResetSignal
  | .ingest b => .port (.byteIn b)
  | .frameScan => .frameCommand scanCommand
  | .frameEcho => .frameCommand 0x00
  | .resetLink => .port .linkResetSignal

/-- `MemRead(addr, n)` and `MemWrite(addr, n, v)` of R9: the bus collaborator's view, `off = addr - TIMER_BASE`. Log entry 19. -/
def memRead (addr : Word) (n : Nat) : PortInput := .busRead n (addr - Config.timerBase)

/-- See `memRead`. -/
def memWrite (addr : Word) (n : Nat) (v : Word) : PortInput := .busWrite n (addr - Config.timerBase) v

/-! ### Frames (R70 to R72) -/

/-- Header bytes 0 and 1 of a constructed frame (R7, R70). -/
def header0 : Byte := 0xBC
/-- See `header0`. -/
def header1 : Byte := 0xCF
/-- Index of the command byte (R7). -/
def commandIndex : Nat := 2
/-- Index of the length byte (R7). -/
def lengthIndex : Nat := 3
/-- Total size minus declared length (R7). -/
def frameOverhead : Nat := 6

/-- The total size of the frame at the front of a byte stream: `L + 6`, an integer without wraparound (R71), once the length
byte has arrived, and unknown before (R72). -/
def frameTotal (bs : List Byte) : Option Nat := bs[lengthIndex]?.map (fun l => l.toNat + frameOverhead)

/-- The variable-length decoder of a byte stream (R72): the first frame and the bytes after it, or none while the frame is not
complete. Boundaries are found by counting only. -/
def splitFrame (bs : List Byte) : Option (List Byte × List Byte) :=
  match frameTotal bs with
  | none => none
  | some n => if n ≤ bs.length then some (bs.take n, bs.drop n) else none

/-! ### The words of spec/opcode_table.json -/

/-- The selector that a word of spec/opcode_table.json stands for (log entry 3). The table gives a bus row its 32-bit offset and
no bit for the direction, so 9 to 32 bits are a bus read; 33 to 64 bits are a bus write, offset first and data word above it;
1 to 8 bits are the command byte of a completed frame where that is 0x20, and else a byte on the byte channel; no bits at all
is the first row that has none, the tick input. -/
def ofTableWord (nbits w : Nat) : Option Encoded :=
  if nbits = 0 then some (.port .tickSignal)
  else if nbits ≤ 8 then
    (if BitVec.ofNat 8 w = scanCommand then some (.frameCommand scanCommand) else some (.port (.byteIn (BitVec.ofNat 8 w))))
  else if nbits ≤ 32 then some (.port (.busRead 4 (BitVec.ofNat 32 w)))
  else if nbits ≤ 64 then some (.port (.busWrite 4 (BitVec.ofNat 32 w) (BitVec.ofNat 32 (w / 2 ^ 32))))
  else none

/-- What the decoder reads from a word of the table, numbered as the table numbers it (log entry 3). -/
def decodeTableWord (nbits w : Nat) : Option Instr :=
  match ofTableWord nbits w with
  | some e => (decode e).toOption
  | none => none

end Sys2Proof
end

