-- ==== Sys2Proof/Machine/Framing.lean ====
section
/-! DEFINITION. The framing engine's pure part (43_framed_link.md): appending a byte with the length latch, completion, the command,
the reply, and frame construction with its checksum. -/

namespace Sys2Proof.Machine

/-- The append and the length latch of `Ingest` (R161 step 1 and R162): the 4th byte fixes `expected = L + 6`. -/
def Link.accept (l : Link) (b : Byte) : Link :=
  let bytes := l.rxbuf ++ [b]
  { rxbuf := bytes
    expected := if bytes.length = 4 then some ((bytes.getD lengthIndex 0).toNat + frameOverhead) else l.expected }

/-- The completion test (R164): the buffer's length equals the expected total size; never while that is unbounded (R163). -/
def Link.complete (l : Link) : Bool := l.expected == some l.rxbuf.length

/-- The command byte, read from the buffer at completion (R53, R165). Log entry 27 for a buffer of fewer than three bytes. -/
def Link.command (l : Link) : Byte := l.rxbuf.getD commandIndex 0

/-- A completed frame whose command byte is 0x20 (R167, R77). -/
def Link.scanReady (l : Link) : Bool := l.complete && decodeCommand l.command == .frameScan

/-- A completed frame with any other command byte (R168, R77). -/
def Link.echoReady (l : Link) : Bool := l.complete && decodeCommand l.command == .frameEcho

/-- After the last emission the buffer is empty and the expected length unbounded again (R169; log entry 20). -/
def Link.clear (_ : Link) : Link := { rxbuf := [], expected := none }

/-- One round of the checksum loop (R170): checksum byte 1 takes in `result[i]`, then checksum byte 2 the updated byte 1. -/
def checksumRound (length : Nat) (result : List Byte) (i : Nat) : List Byte :=
  let r1 := result.set (length + 4) (result.getD (length + 4) 0 + result.getD i 0)
  r1.set (length + 5) (r1.getD (length + 5) 0 + r1.getD (length + 4) 0)

/-- One round of the payload copy of R170. -/
def payloadRound (payload : List Byte) (result : List Byte) (k : Nat) : List Byte :=
  result.set (4 + k) (payload.getD k 0)

/-- `buildFrame` (R170), line by line: `length + 6` zero bytes, the four leading bytes, the payload, then the checksum loop for `i`
from 2 to `length + 3`. -/
def buildFrame (command : Byte) (length : Nat) (payload : List Byte) : List Byte :=
  let blank := List.replicate (length + 6) (0 : Byte)
  let led := (((blank.set 0 header0).set 1 header1).set 2 command).set 3 (BitVec.ofNat 8 length)
  let filled := (List.range length).foldl (payloadRound payload) led
  (List.range' 2 (length + 2)).foldl (checksumRound length) filled

/-- Where R170 defines `buildFrame`: `0 <= length <= 255` and `len(payload) = length` (U12; log entry 23). -/
def buildFrameDefined (length : Nat) (payload : List Byte) : Bool := length ≤ 255 && payload.length == length

/-- `buildFrame` with its domain: no answer outside it (U12). -/
def buildFrameChecked (command : Byte) (length : Nat) (payload : List Byte) : Option (List Byte) :=
  if buildFrameDefined length payload then some (buildFrame command length payload) else none

/-- The only frame CORE constructs (R75, R167): the reply to a scan. -/
def scanReply : List Byte := buildFrame scanCommand 1 [0x00]

/-- What a completed frame is answered with (R165): the fixed scan reply, or the frame itself. -/
def replyTo (frame : List Byte) : List Byte :=
  if decodeCommand (frame.getD commandIndex 0) = .frameScan then scanReply else frame

end Sys2Proof.Machine
end

