-- ==== Sys2Proof/Machine/Operands.lean ====
section
/-! DEFINITION. Register words and variables: how each register's word is assembled from, and taken apart into, the variables of
TIMER (R62, R63, R64), one function per register and direction. Pure functions on `Timer`. -/

namespace Sys2Proof.Machine

/-- A one-bit field's contribution to a read word: `fieldvalue << lo` (R63). -/
def fieldBit (b : Bool) (lo : Nat) : Word := (if b then 1#32 else 0#32) <<< lo

/-- The one-bit slice `w[i]` of a written word (R8, R63). -/
def slice1 (w : Word) (i : Nat) : Bool := w.getLsbD i

/-- OnePulseMode as a bit: 1 = OneShot (R17, R62; log entry 13). -/
def Mode.bit : Mode → Bool
  | .periodic => false
  | .oneShot => true

/-- The mode a written OnePulseMode bit selects (R17, R111). -/
def modeOfBit (b : Bool) : Mode := if b then .oneShot else .periodic

/-- R110. -/
def Timer.readControl1 (t : Timer) : Word :=
  fieldBit t.enabled 0 ||| fieldBit t.updateDisable 1 ||| fieldBit t.updateRequestSource 2 ||| fieldBit t.mode.bit 3
    ||| fieldBit t.autoReloadPreloadEnable 7

/-- R111: all five bits, every other bit ignored; counter, phase, limit and flag are unchanged. -/
def Timer.writeControl1 (t : Timer) (w : Word) : Timer :=
  { t with
    enabled := slice1 w 0
    updateDisable := slice1 w 1
    updateRequestSource := slice1 w 2
    mode := modeOfBit (slice1 w 3)
    autoReloadPreloadEnable := slice1 w 7 }

/-- R112: bit 8 is a tag and reads 0. -/
def Timer.readDier (t : Timer) : Word := fieldBit t.interruptEnable 0

/-- R113: bit 8 is discarded. -/
def Timer.writeDier (t : Timer) (w : Word) : Timer := { t with interruptEnable := slice1 w 0 }

/-- R114. -/
def Timer.readStatus (t : Timer) : Word := fieldBit t.interruptFlag 0

/-- R115: the clearing pattern is 0, and nothing else changes the flag here. -/
def Timer.writeStatus (t : Timer) (w : Word) : Timer :=
  if slice1 w 0 then t else { t with interruptFlag := false }

/-- R116: a self-clearing trigger holds nothing to read. -/
def Timer.readEventgen (_ : Timer) : Word := 0

/-- R118. -/
def Timer.readCounter (t : Timer) : Word := t.value

/-- R119: the phase restarts with the counter (log entry 6). -/
def Timer.writeCounter (t : Timer) (w : Word) : Timer := { t with value := w, presc := 0 }

/-- R120: `divider - 1`, a u32 (log entry 7). -/
def Timer.readPrescaler (t : Timer) : Word := BitVec.ofNat 32 (t.divider - 1)

/-- R121: integer addition with no wraparound, and the phase restarts (log entries 6 and 7). -/
def Timer.writePrescaler (t : Timer) (w : Word) : Timer := { t with divider := w.toNat + 1, presc := 0 }

/-- R122: the pending value, not the active limit. -/
def Timer.readAutoreload (t : Timer) : Word := t.autoReloadValue

/-- R123: the active limit follows at once unless preload is on. -/
def Timer.writeAutoreload (t : Timer) (w : Word) : Timer :=
  { t with
    autoReloadValue := w
    limit := if t.autoReloadPreloadEnable then t.limit else w }

end Sys2Proof.Machine
end

