-- ==== Sys2Proof/Machine/Ops.lean ====
section
/-! DEFINITION. The named operations every meaning is written over: recording an output, running what a consumer calls from inside its
callback (R54), replacing TIMER's variables with the notice of a changed line, emitting bytes one by one, returning to the caller, and
the re-entrancy guards. CORE takes no trap and returns from none (R189); its two reports and its one line are what it raises. -/

namespace Sys2Proof.Machine

/-- One operation and then, unless it stops, the next. -/
def andThen (o : Host.Outcome State Fault Refusal) (k : State → Host.Outcome State Fault Refusal) :
    Host.Outcome State Fault Refusal :=
  match o with
  | .next s => k s
  | .fault r => .fault r
  | .refused r => .refused r

/-- What runs the calls a consumer makes from inside a callback, in order. -/
abbrev Caller := List PortInput → State → Host.Outcome State Fault Refusal

/-- The refusal of a selector the decoder rejects (R42). -/
def refusalOf : Reject → Refusal
  | .accessWidth n => .accessWidth n

/-! ### Updates of the state -/

/-- TIMER's variables replaced. -/
def State.withTimer (s : State) (t : Timer) : State := { s with timer := t }

/-- LINK's variables replaced. -/
def State.withLink (s : State) (l : Link) : State := { s with link := l }

/-- Outputs recorded after all earlier ones (R52; log entry 25). -/
def State.output (s : State) (o : List Output) : State := { s with outputs := s.outputs ++ o }

/-- The operation's outcome for its caller (R6). -/
def State.answer (s : State) (r : Result) : State := { s with result := some r }

/-- The running callbacks replaced (R54). -/
def State.within (s : State) (cs : List Callback) : State := { s with inside := cs }

/-- The next callback of `onByte` has begun: its consumer's calls are taken off the list. -/
def State.popOnByte (s : State) : State := { s with onByteCalls := s.onByteCalls.tail }

/-- The next `irq` change notification has begun: its consumer's calls are taken off the list. -/
def State.popIrq (s : State) : State := { s with irqCalls := s.irqCalls.tail }

/-- A call from inside a callback has returned: its outcome is recorded where it happened (R54 case a). -/
def State.noteReturn (s : State) : State := { s with outputs := s.outputs ++ s.result.toList.map .returned }

/-! ### Callbacks (R28, R52, R54) -/

/-- The calls a consumer makes, run inside its callback `c`; when they have returned, so does the callback. -/
def insideCallback (run : Caller) (c : Callback) (calls : List PortInput) (s : State) : Host.Outcome State Fault Refusal :=
  andThen (run calls (s.within (c :: s.inside))) (fun t => .next (t.within s.inside))

/-- The `irq` line has changed: the new level is notified once, in line, and the consumer's calls run at this point (R28, R54). -/
def notifyIrq (run : Caller) (s : State) (level : Bool) : Host.Outcome State Fault Refusal :=
  insideCallback run .irqChange (s.irqCalls.headD []) (s.popIrq.output [.irq level])

/-- TIMER's variables replaced, with the notice where that changes the level of `irq` (R52, R185; log entry 25). -/
def setTimer (run : Caller) (s : State) (t : Timer) : Host.Outcome State Fault Refusal :=
  if t.irq = s.timer.irq then .next (s.withTimer t) else notifyIrq run (s.withTimer t) t.irq

/-- `emit(b)`: `onByte(b)` invoked once, and the consumer's calls run at this point (R9, R166, R54). -/
def emitByte (run : Caller) (b : Byte) (s : State) : Host.Outcome State Fault Refusal :=
  insideCallback run .onByte (s.onByteCalls.headD []) (s.popOnByte.output [.byte b])

/-- `emit` of every byte in order (R166). -/
def emitAll (run : Caller) : List Byte → State → Host.Outcome State Fault Refusal
  | [], s => .next s
  | b :: rest, s => andThen (emitByte run b s) (emitAll run rest)

/-! ### Guards and the ends of operations -/

/-- The running operation was invoked from inside an `irq` change notification (R54). -/
def State.insideTimer (s : State) : Bool := s.inside.contains .irqChange

/-- The running operation was invoked from inside `onByte` (R54). -/
def State.insideLink (s : State) : Bool := s.inside.contains .onByte

/-- What an operation does to TIMER: its variables afterwards, the advisories signalled, and the outcome for the caller. -/
structure TimerEffect where
  timer : Timer
  advisories : List Advisory
  result : Result
  deriving DecidableEq, Repr

/-- A TIMER operation with this effect: refused from inside TIMER's own notification (R54 case b; log entry 21), and else its
advisories, its variables with the notice of a changed line, and its outcome. -/
def timerOpWith (run : Caller) (s : State) (e : Except Refusal TimerEffect) : Host.Outcome State Fault Refusal :=
  if s.insideTimer then .refused .reentrantTimerCall
  else
    match e with
    | .error r => .refused r
    | .ok e => andThen (setTimer run (s.output (e.advisories.map .advisory)) e.timer) (fun t => .next (t.answer e.result))

/-- Every LINK input operation: refused from inside LINK's own `onByte` (R54 case b), and else `k` (log entry 21). -/
def linkOp (s : State) (k : Host.Outcome State Fault Refusal) : Host.Outcome State Fault Refusal :=
  if s.insideLink then .refused .reentrantLinkCall else k

/-- The end of a completed frame (R166, R169): the whole reply through the connected sink, then LINK cleared (R215; log entry 22). -/
def finishFrameWith (run : Caller) (s : State) (out : List Byte) : Host.Outcome State Fault Refusal :=
  if s.sinkConnected then andThen (emitAll run out s) (fun t => .next ((t.withLink t.link.clear).answer .done))
  else .refused .sinkAbsent

end Sys2Proof.Machine
end

