-- ==== Sys2Proof/Machine/LinkEffects.lean ====
section
/-! DEFINITION. What each operation of LINK does (43_framed_link.md, 70_reset_and_hazards.md R211), `run` being what runs the calls of
the consumer of `onByte`. -/

namespace Sys2Proof.Machine

/-- FRAME_SCAN, R167: operand, the completed frame in `rxbuf` with command byte 0x20 (log entry 24). -/
def frameScanWith (run : Caller) (s : State) : Host.Outcome State Fault Refusal :=
  if s.link.scanReady then finishFrameWith run s scanReply else .refused .noSuchCompletedFrame

/-- FRAME_ECHO, R168: operand, the completed frame in `rxbuf` with another command byte (log entry 24). The bytes emitted are fixed
before the first `emit` (R166). -/
def frameEchoWith (run : Caller) (s : State) : Host.Outcome State Fault Refusal :=
  if s.link.echoReady then finishFrameWith run s s.link.rxbuf else .refused .noSuchCompletedFrame

/-- INGEST, R161: append and latch; on completion the frame's handler runs in the same operation (R47). -/
def ingestWith (run : Caller) (b : Byte) (s : State) : Host.Outcome State Fault Refusal :=
  linkOp s
    (let s1 := s.withLink (s.link.accept b)
     if s1.link.scanReady then frameScanWith run s1
     else if s1.link.echoReady then frameEchoWith run s1
     else .next (s1.answer .done))

/-- RESET_LINK, R211: nothing is emitted; TIMER is not touched. -/
def resetLinkOp (s : State) : Host.Outcome State Fault Refusal := linkOp s (.next ((s.withLink s.link.clear).answer .done))

end Sys2Proof.Machine
end

