-- ==== Sys2Proof/Machine/TimerEffects.lean ====
section
/-! DEFINITION. What each operation of TIMER does to TIMER: a read and a write of each of the seven registers (41_timer_registers.md),
the two unmapped accesses (60_exceptions.md R181), TICK (R141) and RESET_TIMER (R210). -/

namespace Sys2Proof.Machine

/-- A read: no state changes, and the word is returned (R6, R45). -/
def reading (t : Timer) (w : Word) : Except Refusal TimerEffect := .ok { timer := t, advisories := [], result := .word w }

/-- An operation that leaves these variables and returns nothing (R6). -/
def leaving (t : Timer) : Except Refusal TimerEffect := .ok { timer := t, advisories := [], result := .done }

/-- `raise UnmappedAccess(off)` (R9, R181): reported to the caller, no state change, no data. The machine goes on (R180; log entry 15). -/
def unmappedAt (t : Timer) (off : Word) : Except Refusal TimerEffect := .ok { timer := t, advisories := [], result := .unmappedAccess off }

/-- RD_CONTROL1, R110. -/
def effectRdControl1 (t : Timer) : Except Refusal TimerEffect := reading t t.readControl1

/-- WR_CONTROL1, R111. -/
def effectWrControl1 (w : Word) (t : Timer) : Except Refusal TimerEffect := leaving (t.writeControl1 w)

/-- RD_DIER, R112. -/
def effectRdDier (t : Timer) : Except Refusal TimerEffect := reading t t.readDier

/-- WR_DIER, R113. -/
def effectWrDier (w : Word) (t : Timer) : Except Refusal TimerEffect := leaving (t.writeDier w)

/-- RD_STATUS, R114: the read does not clear the flag. -/
def effectRdStatus (t : Timer) : Except Refusal TimerEffect := reading t t.readStatus

/-- WR_STATUS, R115. -/
def effectWrStatus (w : Word) (t : Timer) : Except Refusal TimerEffect := leaving (t.writeStatus w)

/-- RD_EVENTGEN, R116. -/
def effectRdEventgen (t : Timer) : Except Refusal TimerEffect := reading t t.readEventgen

/-- WR_EVENTGEN, R117. -/
def effectWrEventgen (w : Word) (t : Timer) : Except Refusal TimerEffect :=
  .ok { timer := (t.writeEventgen w).1, advisories := (t.writeEventgen w).2, result := .done }

/-- RD_COUNTER, R118. -/
def effectRdCounter (t : Timer) : Except Refusal TimerEffect := reading t t.readCounter

/-- WR_COUNTER, R119. -/
def effectWrCounter (w : Word) (t : Timer) : Except Refusal TimerEffect := leaving (t.writeCounter w)

/-- RD_PRESCALER, R120. -/
def effectRdPrescaler (t : Timer) : Except Refusal TimerEffect := reading t t.readPrescaler

/-- WR_PRESCALER, R121. -/
def effectWrPrescaler (w : Word) (t : Timer) : Except Refusal TimerEffect := leaving (t.writePrescaler w)

/-- RD_AUTORELOAD, R122. -/
def effectRdAutoreload (t : Timer) : Except Refusal TimerEffect := reading t t.readAutoreload

/-- WR_AUTORELOAD, R123. -/
def effectWrAutoreload (w : Word) (t : Timer) : Except Refusal TimerEffect := leaving (t.writeAutoreload w)

/-- RD_UNMAPPED, R181: the report, and nothing else. -/
def effectRdUnmapped (off : Word) (t : Timer) : Except Refusal TimerEffect := unmappedAt t off

/-- WR_UNMAPPED, R181: the report, and nothing else; the written word is dropped. -/
def effectWrUnmapped (off : Word) (_ : Word) (t : Timer) : Except Refusal TimerEffect := unmappedAt t off

/-- TICK, R141; refused where R142 refuses it (log entry 16). -/
def effectTick (t : Timer) : Except Refusal TimerEffect :=
  match t.tick with
  | some u => leaving u
  | none => .error .tickOutsideDomain

/-- RESET_TIMER, R210: LINK is not touched, no hook runs and no report is made. -/
def effectResetTimer (t : Timer) : Except Refusal TimerEffect := leaving t.resetAll

end Sys2Proof.Machine
end

