-- ==== Sys2Proof/Machine/Reentry.lean ====
section
/-! DEFINITION. Re-entrancy (R54). A consumer of an output callback may call CORE from inside it. A call into the other unit is an
ordinary operation of that unit, run at the point of the callback (case a); a call into the unit whose callback is running is refused
(case b). One callback of each unit can be running at most, so the calls nest two deep at most. -/

namespace Sys2Proof.Machine

/-- Which unit an operation belongs to (the target column of R5). -/
inductive Half where
  | timer
  | link
  deriving DecidableEq, Repr

/-- R5, R76. -/
def unitOf : Instr → Half
  | .rdControl1 => .timer
  | .wrControl1 _ => .timer
  | .rdDier => .timer
  | .wrDier _ => .timer
  | .rdStatus => .timer
  | .wrStatus _ => .timer
  | .rdEventgen => .timer
  | .wrEventgen _ => .timer
  | .rdCounter => .timer
  | .wrCounter _ => .timer
  | .rdPrescaler => .timer
  | .wrPrescaler _ => .timer
  | .rdAutoreload => .timer
  | .wrAutoreload _ => .timer
  | .rdUnmapped _ => .timer
  | .wrUnmapped _ _ => .timer
  | .tick => .timer
  | .resetTimer => .timer
  | .ingest _ => .link
  | .frameScan => .link
  | .frameEcho => .link
  | .resetLink => .link

/-- The refusal of a call into the unit whose own callback is running (R54 case b). -/
def reentrantRefusal : Half → Refusal
  | .timer => .reentrantTimerCall
  | .link => .reentrantLinkCall

/-- The calls made while a callback of each unit is running: every call goes into a unit that is emitting and is refused (R54 case b). -/
def noCalls : Caller
  | [], s => .next s
  | p :: _, _ =>
    match decode (.port p) with
    | .error r => .refused (refusalOf r)
    | .ok i => .refused (reentrantRefusal (unitOf i))

/-- One operation, `run` being what runs the calls its own callbacks' consumers make. -/
def callOne (run : Caller) (i : Instr) (s : State) : Host.Outcome State Fault Refusal :=
  match i with
  | .rdControl1 => timerOpWith run s (effectRdControl1 s.timer)
  | .wrControl1 w => timerOpWith run s (effectWrControl1 w s.timer)
  | .rdDier => timerOpWith run s (effectRdDier s.timer)
  | .wrDier w => timerOpWith run s (effectWrDier w s.timer)
  | .rdStatus => timerOpWith run s (effectRdStatus s.timer)
  | .wrStatus w => timerOpWith run s (effectWrStatus w s.timer)
  | .rdEventgen => timerOpWith run s (effectRdEventgen s.timer)
  | .wrEventgen w => timerOpWith run s (effectWrEventgen w s.timer)
  | .rdCounter => timerOpWith run s (effectRdCounter s.timer)
  | .wrCounter w => timerOpWith run s (effectWrCounter w s.timer)
  | .rdPrescaler => timerOpWith run s (effectRdPrescaler s.timer)
  | .wrPrescaler w => timerOpWith run s (effectWrPrescaler w s.timer)
  | .rdAutoreload => timerOpWith run s (effectRdAutoreload s.timer)
  | .wrAutoreload w => timerOpWith run s (effectWrAutoreload w s.timer)
  | .rdUnmapped off => timerOpWith run s (effectRdUnmapped off s.timer)
  | .wrUnmapped off w => timerOpWith run s (effectWrUnmapped off w s.timer)
  | .tick => timerOpWith run s (effectTick s.timer)
  | .resetTimer => timerOpWith run s (effectResetTimer s.timer)
  | .ingest b => ingestWith run b s
  | .frameScan => frameScanWith run s
  | .frameEcho => frameEchoWith run s
  | .resetLink => resetLinkOp s

/-- The calls of one consumer, one after the other, each whole, its outcome recorded where it returns; `inner` runs the calls made from
inside their own callbacks (R54). -/
def runCalls (inner : Caller) : Caller
  | [], s => .next s
  | p :: rest, s =>
    match decode (.port p) with
    | .error r => .refused (refusalOf r)
    | .ok i => andThen (callOne inner i s) (fun t => runCalls inner rest t.noteReturn)

/-- What runs the calls made from inside a callback of an operation that no callback has invoked. -/
def calls : Caller := runCalls noCalls

/-- A TIMER operation with this effect. -/
def timerOp (s : State) (e : Except Refusal TimerEffect) : Host.Outcome State Fault Refusal := timerOpWith calls s e

end Sys2Proof.Machine
end

