-- ==== Sys2Proof/Machine/LinkOps.lean ====
section
/-! DEFINITION. The operations of LINK (43_framed_link.md): INGEST, the two ways a completed frame ends, and RESET_LINK. -/

namespace Sys2Proof.Machine

/-- FRAME_SCAN, R167 (log entry 24). -/
def execFrameScan (s : State) : Host.Outcome State Fault Refusal := frameScanWith calls s

/-- FRAME_ECHO, R168 (log entry 24). -/
def execFrameEcho (s : State) : Host.Outcome State Fault Refusal := frameEchoWith calls s

/-- INGEST, R161. -/
def execIngest (b : Byte) (s : State) : Host.Outcome State Fault Refusal := ingestWith calls b s

/-- RESET_LINK, R211. -/
def execResetLink (s : State) : Host.Outcome State Fault Refusal := resetLinkOp s

end Sys2Proof.Machine
end

