-- ==== Sys2Proof/Machine/Registers.lean ====
section
/-! DEFINITION. The bus operations: a read and a write of each of the seven registers (41_timer_registers.md) and the two unmapped
accesses (60_exceptions.md R181). -/

namespace Sys2Proof.Machine

/-- RD_CONTROL1, R110. -/
def execRdControl1 (s : State) : Host.Outcome State Fault Refusal := timerOp s (effectRdControl1 s.timer)

/-- WR_CONTROL1, R111. -/
def execWrControl1 (w : Word) (s : State) : Host.Outcome State Fault Refusal := timerOp s (effectWrControl1 w s.timer)

/-- RD_DIER, R112. -/
def execRdDier (s : State) : Host.Outcome State Fault Refusal := timerOp s (effectRdDier s.timer)

/-- WR_DIER, R113. -/
def execWrDier (w : Word) (s : State) : Host.Outcome State Fault Refusal := timerOp s (effectWrDier w s.timer)

/-- RD_STATUS, R114. -/
def execRdStatus (s : State) : Host.Outcome State Fault Refusal := timerOp s (effectRdStatus s.timer)

/-- WR_STATUS, R115. -/
def execWrStatus (w : Word) (s : State) : Host.Outcome State Fault Refusal := timerOp s (effectWrStatus w s.timer)

/-- RD_EVENTGEN, R116. -/
def execRdEventgen (s : State) : Host.Outcome State Fault Refusal := timerOp s (effectRdEventgen s.timer)

/-- WR_EVENTGEN, R117. -/
def execWrEventgen (w : Word) (s : State) : Host.Outcome State Fault Refusal := timerOp s (effectWrEventgen w s.timer)

/-- RD_COUNTER, R118. -/
def execRdCounter (s : State) : Host.Outcome State Fault Refusal := timerOp s (effectRdCounter s.timer)

/-- WR_COUNTER, R119. -/
def execWrCounter (w : Word) (s : State) : Host.Outcome State Fault Refusal := timerOp s (effectWrCounter w s.timer)

/-- RD_PRESCALER, R120. -/
def execRdPrescaler (s : State) : Host.Outcome State Fault Refusal := timerOp s (effectRdPrescaler s.timer)

/-- WR_PRESCALER, R121. -/
def execWrPrescaler (w : Word) (s : State) : Host.Outcome State Fault Refusal := timerOp s (effectWrPrescaler w s.timer)

/-- RD_AUTORELOAD, R122. -/
def execRdAutoreload (s : State) : Host.Outcome State Fault Refusal := timerOp s (effectRdAutoreload s.timer)

/-- WR_AUTORELOAD, R123. -/
def execWrAutoreload (w : Word) (s : State) : Host.Outcome State Fault Refusal := timerOp s (effectWrAutoreload w s.timer)

/-- RD_UNMAPPED, R181. -/
def execRdUnmapped (off : Word) (s : State) : Host.Outcome State Fault Refusal := timerOp s (effectRdUnmapped off s.timer)

/-- WR_UNMAPPED, R181. -/
def execWrUnmapped (off : Word) (w : Word) (s : State) : Host.Outcome State Fault Refusal := timerOp s (effectWrUnmapped off w s.timer)

end Sys2Proof.Machine
end

