-- ==== Sys2Proof/Machine/Signals.lean ====
section
/-! DEFINITION. The two signal inputs of TIMER: TICK (R141) and RESET_TIMER (R210). -/

namespace Sys2Proof.Machine

/-- TICK, R141; refused where R142 refuses it (log entry 16). -/
def execTick (s : State) : Host.Outcome State Fault Refusal := timerOp s (effectTick s.timer)

/-- RESET_TIMER, R210. -/
def execResetTimer (s : State) : Host.Outcome State Fault Refusal := timerOp s (effectResetTimer s.timer)

end Sys2Proof.Machine
end

