-- ==== Sys2Proof/Machine/Dispatch.lean ====
section
/-! DEFINITION. One arm per operation of R76. -/

namespace Sys2Proof.Machine

def exec (i : Instr) (s : State) : Host.Outcome State Fault Refusal :=
  match i with
  | .rdControl1 => Sys2Proof.Machine.execRdControl1 s
  | .wrControl1 w => Sys2Proof.Machine.execWrControl1 w s
  | .rdDier => Sys2Proof.Machine.execRdDier s
  | .wrDier w => Sys2Proof.Machine.execWrDier w s
  | .rdStatus => Sys2Proof.Machine.execRdStatus s
  | .wrStatus w => Sys2Proof.Machine.execWrStatus w s
  | .rdEventgen => Sys2Proof.Machine.execRdEventgen s
  | .wrEventgen w => Sys2Proof.Machine.execWrEventgen w s
  | .rdCounter => Sys2Proof.Machine.execRdCounter s
  | .wrCounter w => Sys2Proof.Machine.execWrCounter w s
  | .rdPrescaler => Sys2Proof.Machine.execRdPrescaler s
  | .wrPrescaler w => Sys2Proof.Machine.execWrPrescaler w s
  | .rdAutoreload => Sys2Proof.Machine.execRdAutoreload s
  | .wrAutoreload w => Sys2Proof.Machine.execWrAutoreload w s
  | .rdUnmapped off => Sys2Proof.Machine.execRdUnmapped off s
  | .wrUnmapped off w => Sys2Proof.Machine.execWrUnmapped off w s
  | .tick => Sys2Proof.Machine.execTick s
  | .resetTimer => Sys2Proof.Machine.execResetTimer s
  | .ingest b => Sys2Proof.Machine.execIngest b s
  | .frameScan => Sys2Proof.Machine.execFrameScan s
  | .frameEcho => Sys2Proof.Machine.execFrameEcho s
  | .resetLink => Sys2Proof.Machine.execResetLink s

end Sys2Proof.Machine
end

