-- ==== Sys2Proof/Machine/Fetch.lean ====
section
/-! DEFINITION. What the next step runs. CORE fetches nothing and sequences nothing by itself (R30): the order of operations is the
order in which the external agents invoke them (R50), held in `State.inputs`. Also how one operation is placed there. -/

namespace Sys2Proof.Machine

/-- What stands next. -/
inductive Fetched where
  /-- Nothing has been invoked: CORE performs no step on its own (R5). -/
  | idle
  /-- What has been invoked is no operation of CORE. -/
  | rejected (r : Refusal)
  /-- The instruction, and the state it runs in. -/
  | run (i : Instr) (s : State)
  deriving DecidableEq, Repr

/-- The next operation, run from outside every callback: between two operations none is running (R47, R54). A frame standing complete
in `rxbuf` is dispatched by its command byte (R53, R165); no run from reset comes upon one, because the INGEST that completes a frame
also ends it (R161, R169; log entry 24). Else the oldest pending invocation. -/
def fetch (s : State) : Fetched :=
  if s.link.complete then .run (decodeCommand s.link.command) (s.within [])
  else
    match s.inputs with
    | [] => .idle
    | p :: rest =>
      match decode (.port p) with
      | .ok i => .run i { s with inputs := rest, inside := [] }
      | .error r => .rejected (refusalOf r)

/-- A completed frame of no payload with this command byte, as `buildFrame` makes it (R170), held by LINK. -/
def linkHolding (command : Byte) : Link := { rxbuf := buildFrame command 0 [], expected := some 6 }

/-- One operation placed where `fetch` reads: an invocation from outside before all pending ones (and before it no completed frame
left standing), or a completed frame (log entry 2). -/
def State.place (s : State) : Encoded → State
  | .port p =>
    { s with
      inputs := p :: s.inputs
      link := if s.link.complete then s.link.clear else s.link }
  | .frameCommand c => s.withLink (linkHolding c)

/-- The operation of a table word placed (log entry 3); no change where the word is none. -/
def State.placeTableWord (s : State) (nbits w : Nat) : State :=
  match ofTableWord nbits w with
  | some e => s.place e
  | none => s

end Sys2Proof.Machine
end

