-- ==== Sys2Proof/Machine/Step.lean ====
section
/-! DEFINITION. One step of CORE: the next operation, run whole (R47). -/

namespace Sys2Proof.Machine

/-- One input operation runs to completion (R47, R50); with none invoked nothing changes (R5). -/
def step (s : State) : Host.Outcome State Fault Refusal :=
  match fetch s with
  | .idle => .next s
  | .rejected r => .refused r
  | .run i s1 => exec i s1

/-- `s` with the operation of a table word standing next (log entries 2 and 3). -/
def State.withFetchWord (s : State) (nbits w : Nat) : State := s.placeTableWord nbits w

end Sys2Proof.Machine
end

