-- ==== Sys2Proof/Machine/Bank.lean ====
section
/-! DEFINITION. The generic register bank (40_register_bank.md): the stored values of its fields, fields with access modes and hooks,
the bank's read, write and reset for any field layout, and TIMER's layout as such a bank (R62, R99), once with hooks alone and once with
the four fields that R99 lets be plain stored ones. The layout and the hooks are configuration (R35); the stored values and the rest of
the unit are what a hook may read and write (R95). -/

namespace Sys2Proof.Machine

/-- The four access modes (R90, R91). -/
inductive AccessMode where
  | readWrite
  | readOnly
  | writeOneToClear
  | writeZeroToClear
  deriving DecidableEq, Repr

/-! ### The state of a unit with a bank (R90, R95) -/

/-- Where a field stands: the offset of its register, and its lowest bit. In a well-formed layout no two fields share one (R90). -/
abbrev FieldKey := Word × Nat

/-- The stored values by field; a field that is not listed holds 0. -/
abbrev Stored := List (FieldKey × Word)

/-- The stored value of a field. -/
def Stored.get : Stored → FieldKey → Word
  | [], _ => 0
  | e :: rest, k => if e.1 = k then e.2 else Stored.get rest k

/-- A stored value replaced. -/
def Stored.put : Stored → FieldKey → Word → Stored
  | [], k, v => [(k, v)]
  | e :: rest, k, v => if e.1 = k then (k, v) :: rest else e :: Stored.put rest k v

/-- Everything a hook may read and write (R95): the stored value of every field of the bank, and the rest of the unit's state. -/
structure BankUnit (σ : Type) where
  stored : Stored
  rest : σ
  deriving DecidableEq, Repr

/-- The current value of the field at `k` (`stored` of R90). -/
def BankUnit.value {σ : Type} (u : BankUnit σ) (k : FieldKey) : Word := Stored.get u.stored k

/-- `f.stored <- v` for the field at `k`. -/
def BankUnit.store {σ : Type} (u : BankUnit σ) (k : FieldKey) (v : Word) : BankUnit σ := { u with stored := Stored.put u.stored k v }

/-! ### The layout (R90, R35) -/

/-- A write hook: the raw slice, and the unit's state before and after (R94, R95). -/
abbrev WriteHook (σ : Type) := Word → BankUnit σ → BankUnit σ

/-- A read hook: the unit's state before, the value it answers, and the unit's state after (R92, R95; log entry 14). -/
abbrev ReadHook (σ : Type) := BankUnit σ → Word × BankUnit σ

/-- A field of a register but for its stored value, which is state of the unit and stands in `BankUnit` (R90, R35). -/
structure BankField (σ : Type) where
  lo : Nat
  width : Nat
  mode : AccessMode
  /-- The declared reset value. -/
  reset : Word
  writeHook : Option (WriteHook σ)
  readHook : Option (ReadHook σ)

/-- A register: its fields in ascending order of `lo`, and the post-write hook (R90). -/
structure BankRegister (σ : Type) where
  fields : List (BankField σ)
  postWrite : Option (BankUnit σ → BankUnit σ)

/-- A finite map from offset to register (R90). -/
abbrev Bank (σ : Type) := List (Word × BankRegister σ)

/-- The low `width` bits. -/
def lowMask (width : Nat) : Word := BitVec.ofNat 32 (2 ^ width - 1)

/-- The slice `w[lo+width-1 : lo]` (R63, R91). -/
def BankField.slice {σ : Type} (f : BankField σ) (w : Word) : Word := (w >>> f.lo) &&& lowMask f.width

/-- The default store of each mode (R91): what `stored` becomes when the slice `s` is written. Clearing is bit by bit (log entry 14). -/
def defaultStore : AccessMode → Word → Word → Word
  | .readWrite, _, s => s
  | .readOnly, stored, _ => stored
  | .writeOneToClear, stored, s => stored &&& ~~~s
  | .writeZeroToClear, stored, s => stored &&& s

/-! ### Read, write and reset -/

/-- A field's value on a read: its read hook's answer, masked to its width, or what is stored (R92). -/
def BankField.read {σ : Type} (f : BankField σ) (off : Word) (u : BankUnit σ) : Word × BankUnit σ :=
  match f.readHook with
  | some h => ((h u).1 &&& lowMask f.width, (h u).2)
  | none => (u.value (off, f.lo), u)

/-- A field on a write (R94): nothing for ReadOnly; the write hook in place of the default store, with the raw slice; else the
default store. -/
def BankField.write {σ : Type} (f : BankField σ) (off w : Word) (u : BankUnit σ) : BankUnit σ :=
  if f.mode = .readOnly then u
  else
    match f.writeHook with
    | some h => h (f.slice w) u
    | none => u.store (off, f.lo) (defaultStore f.mode (u.value (off, f.lo)) (f.slice w))

/-- The word assembled from the fields in order (R92), over what the earlier ones gave. -/
def readFields {σ : Type} (off : Word) : List (BankField σ) → Word → BankUnit σ → Word × BankUnit σ
  | [], acc, u => (acc, u)
  | f :: rest, acc, u => readFields off rest (acc ||| ((f.read off u).1 <<< f.lo)) (f.read off u).2

/-- The fields written in order (R94, R95: each sees what the earlier ones left). -/
def writeFields {σ : Type} (off w : Word) : List (BankField σ) → BankUnit σ → BankUnit σ
  | [], u => u
  | f :: rest, u => writeFields off w rest (f.write off w u)

/-- A register written: every field, then the post-write hook exactly once (R94). -/
def BankRegister.write {σ : Type} (r : BankRegister σ) (off w : Word) (u : BankUnit σ) : BankUnit σ :=
  match r.postWrite with
  | some h => h (writeFields off w r.fields u)
  | none => writeFields off w r.fields u

/-- Bank read (R92): the word and the unit's state, or UnmappedAccess with the offset (R97). -/
def bankRead {σ : Type} (bank : Bank σ) (off : Word) (u : BankUnit σ) : Except Word (Word × BankUnit σ) :=
  match bank.lookup off with
  | some r => .ok (readFields off r.fields 0 u)
  | none => .error off

/-- Bank write (R94): the unit's state, or UnmappedAccess with the offset (R97). -/
def bankWrite {σ : Type} (bank : Bank σ) (off w : Word) (u : BankUnit σ) : Except Word (BankUnit σ) :=
  match bank.lookup off with
  | some r => .ok (r.write off w u)
  | none => .error off

/-- The fields of one register at their declared reset values (R96). -/
def resetFields {σ : Type} (off : Word) : List (BankField σ) → BankUnit σ → BankUnit σ
  | [], u => u
  | f :: rest, u => resetFields off rest (u.store (off, f.lo) f.reset)

/-- Bank reset (R96): every field at its declared reset value; no hook is invoked (log entry 14). -/
def bankReset {σ : Type} : Bank σ → BankUnit σ → BankUnit σ
  | [], u => u
  | e :: rest, u => bankReset rest (resetFields e.1 e.2.fields u)

/-! ### R90's conditions -/

/-- R90's conditions on a field: at least one bit, inside the 32, its reset value in `[0, 2^width - 1]`. -/
def BankField.wf {σ : Type} (f : BankField σ) : Bool :=
  1 ≤ f.width && f.lo + f.width ≤ 32 && f.reset.toNat < 2 ^ f.width

/-- R90's conditions on a register: fields well-formed, ordered and not overlapping. -/
def fieldsWf {σ : Type} : List (BankField σ) → Bool
  | [] => true
  | f :: rest => f.wf && rest.all (fun g => decide (f.lo + f.width ≤ g.lo)) && fieldsWf rest

/-- R90's conditions on a bank: each offset once, each register well-formed. -/
def bankWf {σ : Type} (bank : Bank σ) : Bool := decide (bank.map (·.1)).Nodup && bank.all (fun e => fieldsWf e.2.fields)

/-- "Invariant: value always in [0, 2^width - 1]" (R90), of every field of the bank. -/
def BankUnit.InRange {σ : Type} (bank : Bank σ) (u : BankUnit σ) : Prop :=
  ∀ e ∈ bank, ∀ f ∈ e.2.fields, (u.value (e.1, f.lo)).toNat < 2 ^ f.width

/-- What a layout owes for R90's invariant: none of its hooks takes a stored value out of its range (log entry 14). -/
def hooksKeepRange {σ : Type} (bank : Bank σ) : Prop :=
  ∀ e ∈ bank,
    (∀ f ∈ e.2.fields,
      (∀ h, f.writeHook = some h → ∀ s u, BankUnit.InRange bank u → BankUnit.InRange bank (h s u)) ∧
      (∀ h, f.readHook = some h → ∀ u, BankUnit.InRange bank u → BankUnit.InRange bank (h u).2)) ∧
    (∀ h, e.2.postWrite = some h → ∀ u, BankUnit.InRange bank u → BankUnit.InRange bank (h u))

/-! ### TIMER as a bank (R62, R99) -/

/-- A one-bit ReadWrite field whose hooks go straight to a variable of TIMER (R99); `view` is TIMER as the unit holds it. -/
def varBit (view : BankUnit Timer → Timer) (lo : Nat) (get : Timer → Bool) (put : Bool → Timer → Timer) : BankField Timer :=
  { lo := lo, width := 1, mode := .readWrite, reset := 0
    writeHook := some (fun s u => { u with rest := put (s.getLsbD 0) (view u) })
    readHook := some (fun u => (if get (view u) then 1 else 0, u)) }

/-- A full-width ReadWrite field whose hooks go straight to a variable of TIMER (R99). -/
def varWord (view : BankUnit Timer → Timer) (reset : Word) (get : Timer → Word) (put : Word → Timer → Timer) : BankField Timer :=
  { lo := 0, width := 32, mode := .readWrite, reset := reset
    writeHook := some (fun s u => { u with rest := put s (view u) })
    readHook := some (fun u => (get (view u), u)) }

/-- A one-bit ReadWrite field with no hooks (R99: "these could equally be plain `stored` fields"). -/
def plainBit (lo : Nat) : BankField Timer :=
  { lo := lo, width := 1, mode := .readWrite, reset := 0, writeHook := none, readHook := none }

/-- The tag bit 8 of DmaOrInterruptEnable, with no state and no effect (R62, R99; log entry 12). -/
def tagField : BankField Timer :=
  { lo := 8, width := 1, mode := .readWrite, reset := 0, writeHook := some (fun _ u => u), readHook := some (fun u => (0, u)) }

/-- Status's field: "Read, WriteZeroToClear"; slice 0 clears the flag (R62, R99). -/
def statusField (view : BankUnit Timer → Timer) : BankField Timer :=
  { lo := 0, width := 1, mode := .writeZeroToClear, reset := 0
    writeHook := some (fun s u => if s.getLsbD 0 then u else { u with rest := { view u with interruptFlag := false } })
    readHook := some (fun u => (if (view u).interruptFlag then 1 else 0, u)) }

/-- EventGeneration's field: the self-clearing trigger, with no readable state (R62, R99; log entry 11). -/
def eventgenField (view : BankUnit Timer → Timer) : BankField Timer :=
  { lo := 0, width := 1, mode := .writeOneToClear, reset := 0
    writeHook := some (fun s u => if s.getLsbD 0 then { u with rest := (Timer.forcedEvent Config.direction (view u)).1 } else u)
    readHook := some (fun u => (0, u)) }

/-- TIMER's registers over a view of TIMER and the four fields that R99 lets be plain (R41, R62, R99). Status's post-write hook re-derives
`irq`, which is derived from the state at all times (R185), so it changes no variable. -/
def timerBankOver (view : BankUnit Timer → Timer) (updateDisable updateRequestSource preload interruptEnable : BankField Timer) :
    Bank Timer :=
  [ (0x00,
      ⟨[ varBit view 0 (·.enabled) (fun b t => { t with enabled := b }), updateDisable, updateRequestSource,
         varBit view 3 (·.mode.bit) (fun b t => { t with mode := modeOfBit b }), preload ], none⟩),
    (0x0C, ⟨[interruptEnable, tagField], none⟩),
    (0x10, ⟨[statusField view], some id⟩),
    (0x14, ⟨[eventgenField view], none⟩),
    (0x24, ⟨[varWord view 0 (·.value) (fun w t => { t with value := w, presc := 0 })], none⟩),
    (0x28, ⟨[varWord view 0 (fun t => BitVec.ofNat 32 (t.divider - 1)) (fun w t => { t with divider := w.toNat + 1, presc := 0 })], none⟩),
    (0x2C, ⟨[varWord view Config.initialLimit (·.autoReloadValue)
        (fun w t => { t with autoReloadValue := w, limit := if t.autoReloadPreloadEnable then t.limit else w })], none⟩) ]

/-- TIMER's bank as R99 assigns it: every field with state goes to a variable, and no stored value is consulted. -/
def timerBank : Bank Timer :=
  timerBankOver (·.rest)
    (varBit (·.rest) 1 (·.updateDisable) (fun b t => { t with updateDisable := b }))
    (varBit (·.rest) 2 (·.updateRequestSource) (fun b t => { t with updateRequestSource := b }))
    (varBit (·.rest) 7 (·.autoReloadPreloadEnable) (fun b t => { t with autoReloadPreloadEnable := b }))
    (varBit (·.rest) 0 (·.interruptEnable) (fun b t => { t with interruptEnable := b }))

/-- TIMER where UpdateDisable, UpdateRequestSource, AutoReloadPreloadEnable and UpdateInterruptEnable are plain stored fields (R99): these
four variables are the fields' stored values, which the other fields' hooks read. -/
def plainView (u : BankUnit Timer) : Timer :=
  { u.rest with
    updateDisable := (u.value (0x00, 1)).getLsbD 0
    updateRequestSource := (u.value (0x00, 2)).getLsbD 0
    autoReloadPreloadEnable := (u.value (0x00, 7)).getLsbD 0
    interruptEnable := (u.value (0x0C, 0)).getLsbD 0 }

/-- TIMER's bank with those four fields plain (R99: "the two are indistinguishable"). -/
def timerBankPlain : Bank Timer := timerBankOver plainView (plainBit 1) (plainBit 2) (plainBit 7) (plainBit 0)

end Sys2Proof.Machine
end

