-- ==== Sys2Proof/Safety.lean ====
section
/-! DEFINITION. The terms claims are stated in: the domain of TIMER (R25), the invariants of TIMER and LINK between operations (R12,
R13, R27), which unit an operation belongs to (R5), sequences of operations, and the trace notation (R80, R81). -/

namespace Sys2Proof.Machine

/-- The domain of TIMER (R25): `limit >= 1`, and while Enabled `value < limit`. -/
def Timer.InDomain (t : Timer) : Prop := 1 ≤ t.limit.toNat ∧ (t.enabled = true → t.value.toNat < t.limit.toNat)

/-- The phase and the divider (R12, R13): `1 <= divider <= 2^32` and `presc < divider`. -/
def Timer.Inv (t : Timer) : Prop := 1 ≤ t.divider ∧ t.divider ≤ 2 ^ 32 ∧ t.presc < t.divider

/-- LINK between operations (R27): at most 3 bytes exactly while the expected length is unbounded; from 4 bytes on it is the 4th
byte plus 6, and not reached yet. -/
def Link.Inv (l : Link) : Prop :=
  (l.rxbuf.length ≤ 3 ↔ l.expected = none) ∧
  (4 ≤ l.rxbuf.length → ∃ b, l.rxbuf[3]? = some b ∧ l.expected = some (b.toNat + 6) ∧ l.rxbuf.length < b.toNat + 6)

/-- The invariant of CORE between operations. -/
def State.Inv (s : State) : Prop := s.timer.Inv ∧ s.link.Inv

/-- The bus reads of TIMER (R45). -/
def isRead : Instr → Bool
  | .rdControl1 => true
  | .rdDier => true
  | .rdStatus => true
  | .rdEventgen => true
  | .rdCounter => true
  | .rdPrescaler => true
  | .rdAutoreload => true
  | .rdUnmapped _ => true
  | .wrControl1 _ => false
  | .wrDier _ => false
  | .wrStatus _ => false
  | .wrEventgen _ => false
  | .wrCounter _ => false
  | .wrPrescaler _ => false
  | .wrAutoreload _ => false
  | .wrUnmapped _ _ => false
  | .tick => false
  | .resetTimer => false
  | .ingest _ => false
  | .frameScan => false
  | .frameEcho => false
  | .resetLink => false

/-- A limit event happens in the next tick (R141): Enabled, inside the domain, the last tick of a group, and the increment reaches
`limit`. -/
def Timer.limitDue (t : Timer) : Bool :=
  t.enabled && decide (t.value.toNat < t.limit.toNat) && decide (t.divider ≤ t.presc + 1) && decide (t.value.toNat + 1 = t.limit.toNat)

/-- LINK and its output trace are as before: what no operation of TIMER touches (R2). -/
def linkSideKept (s t : State) : Prop := t.link = s.link ∧ t.sent = s.sent

/-- TIMER, its line's notices and its advisories are as before: what no operation of LINK touches (R2). -/
def timerSideKept (s t : State) : Prop := t.timer = s.timer ∧ t.irqNotices = s.irqNotices ∧ t.advisories = s.advisories

/-- The ports' side of the state is as before: pending invocations, running callbacks, the sink (log entry 1), and of what the
consumers will call nothing but what a callback has taken off the front (R54). -/
def portsKept (s t : State) : Prop :=
  t.inputs = s.inputs ∧ t.inside = s.inside ∧ t.sinkConnected = s.sinkConnected ∧ t.onByteCalls <:+ s.onByteCalls ∧
    t.irqCalls <:+ s.irqCalls

/-- The consumer of the next `irq` change notification calls nothing from inside it. -/
abbrev State.irqQuiet (s : State) : Prop := s.irqCalls.headD [] = []

/-- The consumer of `onByte` calls nothing from inside any coming callback. -/
abbrev State.sinkQuiet (s : State) : Prop := ∀ c ∈ s.onByteCalls, c = []

/-- Two outcomes alike but for LINK's variables, which are `l` in the second (R2). -/
def outcomeWithLink (l : Link) : Host.Outcome State Fault Refusal → Host.Outcome State Fault Refusal
  | .next t => .next (t.withLink l)
  | .fault r => .fault r
  | .refused r => .refused r

/-- Two outcomes alike but for TIMER's variables, which are `x` in the second (R2). -/
def outcomeWithTimer (x : Timer) : Host.Outcome State Fault Refusal → Host.Outcome State Fault Refusal
  | .next t => .next { t with timer := x }
  | .fault r => .fault r
  | .refused r => .refused r

/-- Two outcomes alike but for the running callbacks, which are `cs` in the second (R54). -/
def outcomeInside (cs : List Callback) : Host.Outcome State Fault Refusal → Host.Outcome State Fault Refusal
  | .next t => .next { t with inside := cs }
  | .fault r => .fault r
  | .refused r => .refused r

/-- Operations run one after the other, each whole, up to the first refusal (R47, R50). -/
def execAll : List Instr → State → Host.Outcome State Fault Refusal
  | [], s => .next s
  | i :: rest, s =>
    match exec i s with
    | .next t => execAll rest t
    | .fault r => .fault r
    | .refused r => .refused r

/-- What a consumer calls, as operations of `exec` run one after the other at this point, each outcome recorded (R54 case a). -/
def execCalls : List PortInput → State → Host.Outcome State Fault Refusal
  | [], s => .next s
  | p :: rest, s =>
    match decode (.port p) with
    | .error r => .refused (refusalOf r)
    | .ok i => andThen (exec i s) (fun t => execCalls rest t.noteReturn)

/-- The emission of R166 in terms of `exec`: each byte is recorded, then what its consumer calls runs inside `onByte`, then the next byte
follows (R52, R54). -/
def emission : List Byte → State → Host.Outcome State Fault Refusal
  | [], s => .next s
  | b :: rest, s =>
    andThen
      (execCalls (s.onByteCalls.headD [])
        { s with outputs := s.outputs ++ [.byte b], onByteCalls := s.onByteCalls.tail, inside := .onByte :: s.inside })
      (fun t => emission rest { t with inside := s.inside })

/-- What writes the pending limit (R15). -/
def writesPendingLimit : Instr → Bool
  | .rdControl1 => false
  | .wrControl1 _ => false
  | .rdDier => false
  | .wrDier _ => false
  | .rdStatus => false
  | .wrStatus _ => false
  | .rdEventgen => false
  | .wrEventgen _ => false
  | .rdCounter => false
  | .wrCounter _ => false
  | .rdPrescaler => false
  | .wrPrescaler _ => false
  | .rdAutoreload => false
  | .wrAutoreload _ => true
  | .rdUnmapped _ => false
  | .wrUnmapped _ _ => false
  | .tick => false
  | .resetTimer => true
  | .ingest _ => false
  | .frameScan => false
  | .frameEcho => false
  | .resetLink => false

/-- No operation of the sequence writes the pending limit, and no tick of it is an unsuppressed limit event in the state it runs in: the
"natural reload" of the preload law has not come (R150, R217). -/
def beforeNaturalReload : List Instr → State → Bool
  | [], _ => true
  | i :: rest, s =>
    !writesPendingLimit i && !(i == .tick && s.timer.limitDue && !s.timer.updateDisable) &&
    (match exec i s with
     | .next t => beforeNaturalReload rest t
     | .fault _ => true
     | .refused _ => true)

/-- `TICK n` of R81. -/
def ticks (n : Nat) : List Instr := List.replicate n .tick

/-- `RX b0 b1 ... bk` of R81. -/
def receives (bs : List Byte) : List Instr := bs.map .ingest

/-- A byte stream cut into frames by counting (R72), at most `fuel` of them, and the bytes of the frame not complete yet. -/
def cutFrames : Nat → List Byte → List (List Byte) × List Byte
  | 0, bs => ([], bs)
  | fuel + 1, bs =>
    match splitFrame bs with
    | none => ([], bs)
    | some (f, rest) => (f :: (cutFrames fuel rest).1, (cutFrames fuel rest).2)

/-- What a step leaves to the claims that take "nothing refused" as a premise (R6): a safe run is one in which every step answers
a next state. -/
def safeRun : Nat → State → Bool
  | 0, _ => true
  | n + 1, s =>
    match step s with
    | .next t => safeRun n t
    | .fault _ => false
    | .refused _ => false

/-! ### The trace notation (R80, R81; log entry 29) -/

/-- One line of a program. -/
inductive TraceLine where
  /-- `WR off, w`. -/
  | wr (off w : Word)
  /-- `RD off -> w`. -/
  | rd (off w : Word)
  /-- `RD off` ending with UnmappedAccess. -/
  | rdUnmapped (off : Word)
  /-- `TICK n`. -/
  | tick (n : Nat)
  | resetTimer
  | resetLink
  /-- `RX b0 b1 ... bk`. -/
  | rx (bs : List Byte)
  /-- `TX b0 b1 ... bk`: LINK has emitted these since the last `TX` line. -/
  | tx (bs : List Byte)
  /-- `IRQ = v`. -/
  | irq (v : Bool)
  deriving DecidableEq, Repr

/-- The invocations a line stands for; `TX` and `IRQ` lines are none. -/
def TraceLine.inputs : TraceLine → List PortInput
  | .wr off w => [.busWrite 4 off w]
  | .rd off _ => [.busRead 4 off]
  | .rdUnmapped off => [.busRead 4 off]
  | .tick n => List.replicate n .tickSignal
  | .resetTimer => [.timerResetSignal]
  | .resetLink => [.linkResetSignal]
  | .rx bs => bs.map .byteIn
  | .tx _ => []
  | .irq _ => []

/-- What a line asserts of the state after its invocations, `seen` bytes having been accounted for by earlier `TX` lines. -/
def TraceLine.holds (l : TraceLine) (seen : Nat) (s : State) : Bool :=
  match l with
  | .wr _ _ => true
  | .rd _ w => s.result == some (.word w)
  | .rdUnmapped off => s.result == some (.unmappedAccess off)
  | .tick _ => true
  | .resetTimer => true
  | .resetLink => true
  | .rx _ => true
  | .tx bs => s.sent.drop seen == bs
  | .irq v => s.irq == v

/-- One step for each invocation, in order. -/
def runInputs : List PortInput → State → Option State
  | [], s => some s
  | p :: rest, s =>
    match step { s with inputs := [p] } with
    | .next t => runInputs rest t
    | .fault _ => none
    | .refused _ => none

/-- A program run from `s`: the end state, or none where a step is refused or an assertion fails. -/
def runTrace : List TraceLine → Nat → State → Option State
  | [], _, s => some s
  | l :: rest, seen, s =>
    match runInputs l.inputs s with
    | none => none
    | some t =>
      if l.holds seen t then
        runTrace rest (match l with | .tx bs => seen + bs.length | _ => seen) t
      else none

end Sys2Proof.Machine
end

