-- ==== Sys2Proof/Certificates/Slice0/Obligations.lean ====
section
/-! DEFINITION. The statements for the provers. "Not from inside an irq notification" and "not from inside onByte" are the premises of
R54 case b. `irqQuiet` and `sinkQuiet` say that the consumers of the callbacks call nothing; what happens where they call something is
CallbacksMayOperateOnlyTheOtherUnit, in general (R54 case a). Everything else in a premise is on the state and the operands alone. -/

open Sys2Proof Sys2Proof.Machine

/-! ### Encodings and the step -/

/-- Decoding and encoding agree, for every well-formed instruction with every operand, and for every well-formed selector at a port, which
is encoded back as it was: no offset, word or byte is dropped (30_encoding.md, R60, R76, R77). A frame's command byte is no port: it
decodes by R73, and FRAME_ECHO stands for 255 of its values. -/
def Obligations.DecodeAndEncodeAgree : Prop :=
  (∀ i : Instr, i.wf = true → (encode i).wf = true ∧ decode (encode i) = .ok i) ∧
  (∀ p : PortInput, p.wf = true → ∃ i, decode (.port p) = .ok i ∧ i.wf = true ∧ encode i = .port p) ∧
  (∀ c : Byte, decode (.frameCommand c) = .ok (if c = 0x20 then .frameScan else .frameEcho))

/-- Selectors written out from the table of R76 decode to the operations they stand for. -/
def Obligations.WrittenOutSelectorsDecode : Prop :=
  decode (.port (.busRead 4 0x00000000)) = .ok .rdControl1 ∧
  decode (.port (.busWrite 4 0x0000000C 0x00000101)) = .ok (.wrDier 0x00000101) ∧
  decode (.port (.busRead 4 0x00000010)) = .ok .rdStatus ∧
  decode (.port (.busWrite 4 0x00000014 0x00000001)) = .ok (.wrEventgen 0x00000001) ∧
  decode (.port (.busRead 4 0x00000024)) = .ok .rdCounter ∧
  decode (.port (.busWrite 4 0x00000028 0xFFFFFFFF)) = .ok (.wrPrescaler 0xFFFFFFFF) ∧
  decode (.port (.busRead 4 0x0000002C)) = .ok .rdAutoreload ∧
  decode (.port (.busRead 4 0x00000026)) = .ok (.rdUnmapped 0x00000026) ∧
  decode (.port (.busWrite 4 0xFFFFFFFC 0x00000000)) = .ok (.wrUnmapped 0xFFFFFFFC 0x00000000) ∧
  decode (.port .tickSignal) = .ok .tick ∧
  decode (.port (.byteIn 0x20)) = .ok (.ingest 0x20) ∧
  decode (.frameCommand 0x20) = .ok .frameScan ∧
  decode (.frameCommand 0x21) = .ok .frameEcho

/-- A step runs the decoded operation, from outside every callback: with no frame standing complete, the oldest pending invocation, taken
off the list; with a frame standing complete, its handler. With nothing invoked nothing changes (R5, R50; the list is the model's, log
entries 1 and 24). -/
def Obligations.StepRunsTheDecodedOperation : Prop :=
  (∀ (s : State) (p : PortInput) (rest : List PortInput) (i : Instr),
    s.link.complete = false → s.inputs = p :: rest → decode (.port p) = .ok i →
      step s = exec i { s with inputs := rest, inside := [] }) ∧
  (∀ s : State, s.link.complete = true →
      step s = exec (if s.link.rxbuf.getD 2 0 = 0x20 then .frameScan else .frameEcho) { s with inside := [] }) ∧
  (∀ s : State, s.link.complete = false → s.inputs = [] → step s = .next s)

/-- A bus access that is not four bytes wide is no operation of CORE: the decoder refuses it by name, and so does the step (R42, by
decision D17; log entry 18). -/
def Obligations.OtherAccessWidthsAreRefused : Prop :=
  ∀ (s : State) (n : Nat) (off w : Word) (rest : List PortInput), n ≠ 4 → s.link.complete = false →
    decode (.port (.busRead n off)) = .error (.accessWidth n) ∧ decode (.port (.busWrite n off w)) = .error (.accessWidth n) ∧
    (s.inputs = .busRead n off :: rest → step s = .refused (.accessWidth n)) ∧
    (s.inputs = .busWrite n off w :: rest → step s = .refused (.accessWidth n))

/-- Every frame `buildFrame` makes is one frame to the stream decoder, whatever follows it (R70, R71, R72, R170). -/
def Obligations.BuiltFramesSplitBack : Prop :=
  ∀ (command : Byte) (payload rest : List Byte), payload.length ≤ 255 →
    splitFrame (buildFrame command payload.length payload ++ rest) = some (buildFrame command payload.length payload, rest) ∧
    (buildFrame command payload.length payload).getD 2 0 = command ∧
    ((buildFrame command payload.length payload).drop 4).take payload.length = payload

/-! ### The timer registers, one statement per access -/

/-- RD_CONTROL1 (R110): bits 0, 1, 2, 3 and 7 are the five variables, every other bit reads 0, and no state changes (that the reserved bits
read 0 is decision D11 and that bit 3 is 1 for OneShot decision D12; log entries 12 and 13). -/
def Obligations.ReadControl1ReturnsTheFiveFields : Prop :=
  ∀ s : State, Callback.irqChange ∉ s.inside →
    ∃ t w, exec .rdControl1 s = .next t ∧ t.result = some (.word w) ∧ t.timer = s.timer ∧ linkSideKept s t ∧
      w.getLsbD 0 = s.timer.enabled ∧ w.getLsbD 1 = s.timer.updateDisable ∧ w.getLsbD 2 = s.timer.updateRequestSource ∧
      w.getLsbD 3 = decide (s.timer.mode = .oneShot) ∧ w.getLsbD 7 = s.timer.autoReloadPreloadEnable ∧
      ∀ j, j ≠ 0 → j ≠ 1 → j ≠ 2 → j ≠ 3 → j ≠ 7 → w.getLsbD j = false

/-- WR_CONTROL1 (R111): the five fields take bits 0, 1, 2, 3 and 7 of the word and nothing else changes, so counter, phase, limit,
divider, flag and line are as before (that the phase is kept is decision D5, the polarity of bit 3 decision D12; log entries 6, 13). -/
def Obligations.WriteControl1StoresTheFiveFields : Prop :=
  ∀ (s : State) (w : Word), Callback.irqChange ∉ s.inside →
    ∃ t, exec (.wrControl1 w) s = .next t ∧ t.result = some .done ∧ linkSideKept s t ∧ t.irqNotices = s.irqNotices ∧
      t.advisories = s.advisories ∧
      t.timer =
        { s.timer with
          enabled := w.getLsbD 0
          updateDisable := w.getLsbD 1
          updateRequestSource := w.getLsbD 2
          mode := if w.getLsbD 3 then .oneShot else .periodic
          autoReloadPreloadEnable := w.getLsbD 7 }

/-- RD_DIER and WR_DIER (R112, R113): bit 0 is the enable, bit 8 and all others read 0 and are discarded, the flag is unchanged and
`irq` follows at once (decisions D8, D10 and D11; log entries 10 and 12). -/
def Obligations.DierHoldsTheInterruptEnable : Prop :=
  ∀ (s : State) (w : Word), Callback.irqChange ∉ s.inside →
    (∃ t v, exec .rdDier s = .next t ∧ t.result = some (.word v) ∧ t.timer = s.timer ∧ linkSideKept s t ∧
      v.getLsbD 0 = s.timer.interruptEnable ∧ ∀ j, j ≠ 0 → v.getLsbD j = false) ∧
    (s.irqQuiet →
      ∃ t, exec (.wrDier w) s = .next t ∧ t.result = some .done ∧ linkSideKept s t ∧ t.advisories = s.advisories ∧
        t.timer = { s.timer with interruptEnable := w.getLsbD 0 } ∧ t.irq = (s.timer.interruptFlag && w.getLsbD 0))

/-- RD_STATUS (R114): bit 0 is the flag, the rest 0; the read does not clear the flag (that the reserved bits read 0 is decision D11; log
entry 12). -/
def Obligations.ReadStatusReturnsTheFlagAndKeepsIt : Prop :=
  ∀ s : State, Callback.irqChange ∉ s.inside →
    ∃ t v, exec .rdStatus s = .next t ∧ t.result = some (.word v) ∧ t.timer = s.timer ∧ linkSideKept s t ∧
      v.getLsbD 0 = s.timer.interruptFlag ∧ ∀ j, j ≠ 0 → v.getLsbD j = false

/-- WR_STATUS (R115): a word whose bit 0 is 0 clears the flag and so the line; one whose bit 0 is 1 changes nothing; no write sets the
flag; the other bits do not matter; nothing but the flag changes. -/
def Obligations.WriteStatusClearsTheFlagByZeroOnly : Prop :=
  ∀ (s : State) (w : Word), Callback.irqChange ∉ s.inside → s.irqQuiet →
    ∃ t, exec (.wrStatus w) s = .next t ∧ t.result = some .done ∧ linkSideKept s t ∧
      t.timer = { s.timer with interruptFlag := s.timer.interruptFlag && w.getLsbD 0 } ∧
      t.irq = (s.timer.interruptFlag && w.getLsbD 0 && s.timer.interruptEnable)

/-- RD_EVENTGEN reads 0, and WR_EVENTGEN with bit 0 clear does nothing (R116, R117, by decision D9; log entry 11). -/
def Obligations.EventgenReadsZeroAndIgnoresZero : Prop :=
  ∀ (s : State) (w : Word), Callback.irqChange ∉ s.inside →
    (∃ t, exec .rdEventgen s = .next t ∧ t.result = some (.word 0) ∧ t.timer = s.timer ∧ linkSideKept s t) ∧
    (w.getLsbD 0 = false →
      ∃ t, exec (.wrEventgen w) s = .next t ∧ t.result = some .done ∧ linkSideKept s t ∧ timerSideKept s t)

/-- The forced event (R147): ignored under `updateDisable`; else counter and phase 0 and the flag raised only with
`updateRequestSource` clear and the enable set; the limit, the enable bit and the mode are never touched, Enabled or Disabled, and no
ConfigError is signalled (R182). That the phase is cleared is decision D5, that a written 1 triggers D9 (log entries 6, 11). -/
def Obligations.ForcedEventClearsTheCounter : Prop :=
  ∀ (s : State) (w : Word), Callback.irqChange ∉ s.inside → s.irqQuiet → w.getLsbD 0 = true →
    ∃ t, exec (.wrEventgen w) s = .next t ∧ t.result = some .done ∧ linkSideKept s t ∧ t.advisories = s.advisories ∧
      t.timer =
        (if s.timer.updateDisable then s.timer
         else
          { s.timer with
            value := 0
            presc := 0
            interruptFlag := s.timer.interruptFlag || (!s.timer.updateRequestSource && s.timer.interruptEnable) })

/-- The direction check of the forced event, for a variant with another direction (R148, R182, D16; log entry 17): skipped whole, one
ConfigError, and none while `updateDisable` is set; with Ascending never any. -/
def Obligations.ForcedEventSkipsAnotherDirection : Prop :=
  ∀ (t : Timer) (d : Config.Direction),
    (t.updateDisable = true → t.forcedEvent d = (t, [])) ∧
    (t.updateDisable = false → d ≠ .ascending → t.forcedEvent d = (t, [.configError])) ∧
    ((t.forcedEvent .ascending).2 = []) ∧ Config.direction = .ascending

/-- RD_COUNTER (R118): the bus read of offset 0x24 returns the counter, and only the counter, and nothing changes. -/
def Obligations.ReadCounterReturnsTheCounter : Prop :=
  decode (.port (.busRead 4 0x24)) = .ok .rdCounter ∧
  ∀ s : State, Callback.irqChange ∉ s.inside →
    ∃ t, exec .rdCounter s = .next t ∧ t.result = some (.word s.timer.value) ∧ t.timer = s.timer ∧ linkSideKept s t

/-- WR_COUNTER (R119): the word is stored as written, also at or above `limit`; no flag and no limit event. The phase restarts by
decision D5 (log entry 6). -/
def Obligations.WriteCounterStoresTheWord : Prop :=
  ∀ (s : State) (w : Word), Callback.irqChange ∉ s.inside →
    ∃ t, exec (.wrCounter w) s = .next t ∧ t.result = some .done ∧ linkSideKept s t ∧ t.irqNotices = s.irqNotices ∧
      t.advisories = s.advisories ∧ t.timer = { s.timer with value := w, presc := 0 }

/-- RD_PRESCALER and WR_PRESCALER (R120, R121): `divider = w + 1` with no wraparound, read back as written (decisions D3, D4, D5; log
entries 6 and 7). -/
def Obligations.PrescalerIsStoredPlusOneAndReadsBack : Prop :=
  ∀ (s : State) (w : Word), Callback.irqChange ∉ s.inside →
    (∃ t, exec (.wrPrescaler w) s = .next t ∧ t.result = some .done ∧ linkSideKept s t ∧ t.irqNotices = s.irqNotices ∧
      t.advisories = s.advisories ∧ t.timer = { s.timer with divider := w.toNat + 1, presc := 0 }) ∧
    (1 ≤ s.timer.divider → s.timer.divider ≤ 2 ^ 32 →
      ∃ t v, exec .rdPrescaler s = .next t ∧ t.result = some (.word v) ∧ v.toNat + 1 = s.timer.divider ∧ t.timer = s.timer ∧
        linkSideKept s t)

/-- RD_AUTORELOAD (R122): the pending value, not the active limit. -/
def Obligations.ReadAutoreloadReturnsThePendingValue : Prop :=
  ∀ s : State, Callback.irqChange ∉ s.inside →
    ∃ t, exec .rdAutoreload s = .next t ∧ t.result = some (.word s.timer.autoReloadValue) ∧ t.timer = s.timer ∧ linkSideKept s t

/-- WR_AUTORELOAD (R123): the pending value, and the active limit at once unless preload is on; no flag, no limit event, counter and
phase unchanged, whatever the word. -/
def Obligations.WriteAutoreloadSetsTheLimitUnlessPreloaded : Prop :=
  ∀ (s : State) (w : Word), Callback.irqChange ∉ s.inside →
    ∃ t, exec (.wrAutoreload w) s = .next t ∧ t.result = some .done ∧ linkSideKept s t ∧ t.irqNotices = s.irqNotices ∧
      t.advisories = s.advisories ∧
      t.timer =
        { s.timer with
          autoReloadValue := w
          limit := if s.timer.autoReloadPreloadEnable then s.timer.limit else w }

/-- RD_UNMAPPED and WR_UNMAPPED (R181): outcome UnmappedAccess with the offset, no data, no state change. That the machine goes on with
the outcome recorded is the model's reading of decision D14 (log entry 15). -/
def Obligations.UnmappedAccessIsReportedAndChangesNothing : Prop :=
  ∀ (s : State) (off w : Word), Callback.irqChange ∉ s.inside → isUnmapped off = true →
    exec (.rdUnmapped off) s = .next { s with result := some (.unmappedAccess off) } ∧
    exec (.wrUnmapped off w) s = .next { s with result := some (.unmappedAccess off) }

/-- What each register reads immediately after it was written (R124). The masks of Control1 and DmaOrInterruptEnable are decisions D10 and
D11 (log entry 12), EventGeneration reading 0 is D9 (log entry 11), and the Prescaler's read-back is D4 (log entry 7). -/
def Obligations.RegistersReadBackAsTheSummarySays : Prop :=
  ∀ (s : State) (w : Word), Callback.irqChange ∉ s.inside →
    (∃ t, execAll [.wrControl1 w, .rdControl1] s = .next t ∧ t.result = some (.word (w &&& 0x0000008F))) ∧
    (s.irqQuiet → ∃ t, execAll [.wrDier w, .rdDier] s = .next t ∧ t.result = some (.word (w &&& 0x00000001))) ∧
    (s.irqQuiet → ∃ t, execAll [.wrStatus w, .rdStatus] s = .next t ∧
      t.result = some (.word (if s.timer.interruptFlag then w &&& 0x00000001 else 0))) ∧
    (s.irqQuiet → ∃ t, execAll [.wrEventgen w, .rdEventgen] s = .next t ∧ t.result = some (.word 0)) ∧
    (∃ t, execAll [.wrCounter w, .rdCounter] s = .next t ∧ t.result = some (.word w)) ∧
    (∃ t, execAll [.wrPrescaler w, .rdPrescaler] s = .next t ∧ t.result = some (.word w)) ∧
    (∃ t, execAll [.wrAutoreload w, .rdAutoreload] s = .next t ∧ t.result = some (.word w))

/-- Reads have no side effects (R45): a read changes nothing but the word returned, so the same read again returns the same. The read of an
unmapped offset changes nothing but its outcome (R181; that it completes with a recorded outcome is the model's reading of decision
D14, log entry 15). -/
def Obligations.ReadsHaveNoSideEffects : Prop :=
  ∀ (i : Instr) (s : State), isRead i = true → Callback.irqChange ∉ s.inside →
    ∃ t, exec i s = .next t ∧ t = { s with result := t.result } ∧ exec i t = .next t

/-- The register operations and TIMER's reset are defined in every state, in or out of the domain (R25, by decision D15; log entry 16), the
two unmapped accesses among them (log entry 15). -/
def Obligations.RegisterOperationsAreDefinedInEveryState : Prop :=
  ∀ (i : Instr) (s : State), unitOf i = .timer → i ≠ .tick → Callback.irqChange ∉ s.inside → s.irqQuiet →
    ∃ t, exec i s = .next t ∧ linkSideKept s t

/-! ### Counting -/

/-- A Disabled tick changes nothing (R152; that the phase does not move either is decision D5, log entry 6). -/
def Obligations.DisabledTickChangesNothing : Prop :=
  ∀ s : State, Callback.irqChange ∉ s.inside → s.timer.enabled = false → exec .tick s = .next { s with result := some .done }

/-- An Enabled tick is refused exactly with `limit = 0` or `value >= limit`, and every other tick completes (R142, by decision D15; log
entry 16). -/
def Obligations.TickIsRefusedExactlyOutsideTheDomain : Prop :=
  ∀ s : State, Callback.irqChange ∉ s.inside → s.irqQuiet →
    (exec .tick s = .refused .tickOutsideDomain ↔
      s.timer.enabled = true ∧ (s.timer.limit = 0 ∨ s.timer.limit.toNat ≤ s.timer.value.toNat)) ∧
    ((s.timer.enabled = false ∨ (s.timer.limit ≠ 0 ∧ s.timer.value.toNat < s.timer.limit.toNat)) → ∃ t, exec .tick s = .next t)

/-- TICK inside the domain with no limit event (R141): the phase advances, or on the last tick of a group returns to 0 with the counter
one higher; nothing else changes. -/
def Obligations.TickCountsOncePerDividerTicks : Prop :=
  ∀ s : State, Callback.irqChange ∉ s.inside → s.timer.enabled = true → s.timer.limit ≠ 0 →
    s.timer.value.toNat < s.timer.limit.toNat → s.timer.limitDue = false →
    ∃ t, exec .tick s = .next t ∧ t.result = some .done ∧ linkSideKept s t ∧ t.irqNotices = s.irqNotices ∧
      t.advisories = s.advisories ∧
      (s.timer.presc + 1 < s.timer.divider → t.timer = { s.timer with presc := s.timer.presc + 1 }) ∧
      (s.timer.divider ≤ s.timer.presc + 1 →
        t.timer = { s.timer with presc := 0, value := t.timer.value } ∧ t.timer.value.toNat = s.timer.value.toNat + 1)

/-- The limit event's reload and flag (R144): with `updateDisable` set limit, flag and line are as they were; else the pending value
becomes the limit, the flag is set only with the enable set, and the line is flag AND enable. -/
def Obligations.LimitEventReloadsAndRaisesTheFlag : Prop :=
  ∀ s : State, Callback.irqChange ∉ s.inside → s.irqQuiet → s.timer.limitDue = true →
    ∃ t, exec .tick s = .next t ∧
      (s.timer.updateDisable = true →
        t.timer.limit = s.timer.limit ∧ t.timer.interruptFlag = s.timer.interruptFlag ∧ t.irq = s.irq) ∧
      (s.timer.updateDisable = false →
        t.timer.limit = s.timer.autoReloadValue ∧
        t.timer.interruptFlag = (s.timer.interruptFlag || s.timer.interruptEnable) ∧
        t.irq = (t.timer.interruptFlag && t.timer.interruptEnable))

/-- The limit event whole, with its frame (R143, R144, R145): the counter and phase return to 0 whatever `updateDisable` is (decision
D6) and a one-shot timer stops (decision D7); everything else is as before (log entries 8 and 9). -/
def Obligations.LimitEventWrapsAndStopsOneShot : Prop :=
  ∀ s : State, Callback.irqChange ∉ s.inside → s.irqQuiet → s.timer.limitDue = true →
    ∃ t, exec .tick s = .next t ∧ t.result = some .done ∧ linkSideKept s t ∧ t.advisories = s.advisories ∧
      t.timer =
        { s.timer with
          value := 0
          presc := 0
          enabled := decide (s.timer.mode = .periodic)
          limit := if s.timer.updateDisable then s.timer.limit else s.timer.autoReloadValue
          interruptFlag := s.timer.interruptFlag || (!s.timer.updateDisable && s.timer.interruptEnable) }

/-- The period law (R146): from an Enabled domain state the limit event comes on exactly the tick number
`(limit - value) * divider - presc`, and before it the counter and phase are the quotient and remainder of the ticks by `divider`.
Rests on decisions D5, D6 and D7 for the phase, the wrap and the stop (log entries 6, 8, 9). -/
def Obligations.LimitEventComesAfterExactlyThePeriod : Prop :=
  ∀ s : State, Callback.irqChange ∉ s.inside → s.irqQuiet → s.timer.Inv → s.timer.enabled = true → s.timer.InDomain →
    (∀ n, n < (s.timer.limit.toNat - s.timer.value.toNat) * s.timer.divider - s.timer.presc →
      ∃ t, execAll (ticks n) s = .next t ∧
        t.timer =
          { s.timer with
            value := BitVec.ofNat 32 (s.timer.value.toNat + (s.timer.presc + n) / s.timer.divider)
            presc := (s.timer.presc + n) % s.timer.divider }) ∧
    (∃ t, execAll (ticks ((s.timer.limit.toNat - s.timer.value.toNat) * s.timer.divider - s.timer.presc)) s = .next t ∧
      t.timer =
        { s.timer with
          value := 0
          presc := 0
          enabled := decide (s.timer.mode = .periodic)
          limit := if s.timer.updateDisable then s.timer.limit else s.timer.autoReloadValue
          interruptFlag := s.timer.interruptFlag || (!s.timer.updateDisable && s.timer.interruptEnable) })

/-- In Periodic mode with unchanged registers the events recur every `limit * divider` ticks (R146): from the start of a period, counter
and phase 0 and the pending limit equal to the limit, TIMER stands after `k` periods where it stood, but for a flag raised. That it
does so with `updateDisable` set is decision D6 (log entry 8); the phase is decision D5 (log entry 6). -/
def Obligations.PeriodicEventsRecurEveryPeriod : Prop :=
  ∀ (s : State) (k : Nat), Callback.irqChange ∉ s.inside → s.irqQuiet → s.timer.Inv → s.timer.enabled = true →
    s.timer.mode = .periodic → 1 ≤ s.timer.limit.toNat → s.timer.autoReloadValue = s.timer.limit → s.timer.value = 0 →
    s.timer.presc = 0 →
    ∃ t, execAll (ticks (k * (s.timer.limit.toNat * s.timer.divider))) s = .next t ∧ linkSideKept s t ∧
      t.timer =
        { s.timer with
          interruptFlag := s.timer.interruptFlag || (decide (1 ≤ k) && !s.timer.updateDisable && s.timer.interruptEnable) }

/-- A tick from a domain state whose pending limit is not 0 ends in a domain state: "counter value always < limit while enabled" (R25,
R11; with decision D6, log entry 8). -/
def Obligations.TicksStayInsideTheDomain : Prop :=
  ∀ s t : State, s.timer.InDomain → 1 ≤ s.timer.autoReloadValue.toNat → exec .tick s = .next t → t.timer.InDomain

/-- The preload law (R150, R217): a value written to AutoReload with preload on leaves the limit alone through any further operations that
neither write the pending limit nor are an unsuppressed limit event in the state they run in, counting ticks and limit events under
`updateDisable` among them; and it becomes the limit at the first unsuppressed limit event. The consumer of `onByte` calls nothing on
the way. -/
def Obligations.PreloadedLimitWaitsForTheNaturalReload : Prop :=
  ∀ (s u t : State) (w : Word) (ops : List Instr),
    s.timer.autoReloadPreloadEnable = true → s.sinkQuiet → exec (.wrAutoreload w) s = .next u →
    beforeNaturalReload ops u = true → execAll ops u = .next t →
    t.timer.limit = s.timer.limit ∧ t.timer.autoReloadValue = w ∧
      (Callback.irqChange ∉ t.inside → t.irqQuiet → t.timer.limitDue = true → t.timer.updateDisable = false →
        ∃ v, exec .tick t = .next v ∧ v.timer.limit = w)

/-! ### Whole-machine rules of TIMER -/

/-- `limit` is written by reset, by WR_AUTORELOAD with preload off, and by an unsuppressed limit event, and by nothing else (R14);
a LINK operation counts here with a consumer that calls nothing. -/
def Obligations.LimitIsWrittenByThreeThingsOnly : Prop :=
  ∀ (i : Instr) (s t : State), (unitOf i = .link → s.sinkQuiet) → exec i s = .next t → t.timer.limit ≠ s.timer.limit →
    i = .resetTimer ∨ (∃ w, i = .wrAutoreload w ∧ s.timer.autoReloadPreloadEnable = false) ∨
      (i = .tick ∧ s.timer.limitDue = true ∧ s.timer.updateDisable = false)

/-- When the flag is set, exhaustively (R187), and when it is cleared (R20). That WR_EVENTGEN sets it with bit 0 = 1 only is decision D9 (log
entry 11). A LINK operation counts here with a consumer that calls nothing. -/
def Obligations.FlagIsSetAndClearedOnlyAsListed : Prop :=
  ∀ (i : Instr) (s t : State), (unitOf i = .link → s.sinkQuiet) → exec i s = .next t →
    (s.timer.interruptFlag = false → t.timer.interruptFlag = true →
      s.timer.updateDisable = false ∧ s.timer.interruptEnable = true ∧
        ((i = .tick ∧ s.timer.limitDue = true) ∨
          ∃ w, i = .wrEventgen w ∧ w.getLsbD 0 = true ∧ s.timer.updateRequestSource = false)) ∧
    (s.timer.interruptFlag = true → t.timer.interruptFlag = false →
      i = .resetTimer ∨ ∃ w, i = .wrStatus w ∧ w.getLsbD 0 = false)

/-- The transitions between Enabled and Disabled and of the mode, exhaustively (R140, R16, R17; the one-shot stop is decision D7, log
entry 9). A LINK operation counts here with a consumer that calls nothing. -/
def Obligations.EnableAndModeChangeOnlyAsListed : Prop :=
  ∀ (i : Instr) (s t : State), (unitOf i = .link → s.sinkQuiet) → exec i s = .next t →
    (s.timer.enabled = false → t.timer.enabled = true → ∃ w, i = .wrControl1 w ∧ w.getLsbD 0 = true) ∧
    (s.timer.enabled = true → t.timer.enabled = false →
      i = .resetTimer ∨ (∃ w, i = .wrControl1 w ∧ w.getLsbD 0 = false) ∨
        (i = .tick ∧ s.timer.limitDue = true ∧ s.timer.mode = .oneShot)) ∧
    (t.timer.mode ≠ s.timer.mode → i = .resetTimer ∨ ∃ w, i = .wrControl1 w)

/-- Every change of the level of `irq`, and no other, is notified once, by the operation that causes it (R52, R185; the record is the
model's, log entry 25), and the level is flag AND enable after every operation (decision D8, log entry 10). A LINK operation counts
here with a consumer that calls nothing. -/
def Obligations.EveryIrqChangeIsNotifiedOnce : Prop :=
  ∀ (i : Instr) (s t : State), (unitOf i = .link → s.sinkQuiet) → exec i s = .next t →
    t.irqNotices = s.irqNotices ++ (if t.irq = s.irq then [] else [t.irq]) ∧
    t.irq = (t.timer.interruptFlag && t.timer.interruptEnable)

/-- RESET_TIMER (R210): every variable of TIMER at its reset value whatever the state, the line deasserted, LINK not touched (the values
other than counter, limit, pending limit and flag are decision D2; log entry 5). -/
def Obligations.ResetTimerSetsEveryVariable : Prop :=
  ∀ s : State, Callback.irqChange ∉ s.inside → s.irqQuiet →
    ∃ t, exec .resetTimer s = .next t ∧ t.result = some .done ∧ linkSideKept s t ∧ t.advisories = s.advisories ∧ t.irq = false ∧
      t.timer.value = 0 ∧ t.timer.presc = 0 ∧ t.timer.divider = 1 ∧ t.timer.limit = Config.initialLimit ∧
      t.timer.autoReloadValue = Config.initialLimit ∧ t.timer.enabled = false ∧ t.timer.updateDisable = false ∧
      t.timer.updateRequestSource = false ∧ t.timer.mode = .periodic ∧ t.timer.autoReloadPreloadEnable = false ∧
      t.timer.interruptEnable = false ∧ t.timer.interruptFlag = false

/-- The state after construction is the reset state (R213): each reset brings its unit, from every state, to what `State.reset` holds. -/
def Obligations.ResetsBringBackThePowerOnState : Prop :=
  ∀ s t : State,
    (exec .resetTimer s = .next t → t.timer = State.reset.timer) ∧ (exec .resetLink s = .next t → t.link = State.reset.link)

/-- The parameter `INITIAL_LIMIT` lies in 1 to 2^32 - 1 (R7, D1; log entry 4), so TIMER's reset state is in the domain. -/
def Obligations.ResetStateIsInsideTheDomain : Prop :=
  1 ≤ Config.initialLimit.toNat ∧ State.reset.timer.InDomain ∧ State.reset.timer.limit = Config.initialLimit

/-! ### LINK -/

/-- Before the length byte (R163): with 1, 2 or 3 bytes after the append nothing is emitted and the expected size stays unbounded. -/
def Obligations.IngestBeforeTheLengthByteOnlyGrows : Prop :=
  ∀ (s : State) (b : Byte), Callback.onByte ∉ s.inside → s.link.rxbuf.length ≤ 2 → s.link.expected = none →
    ∃ t, exec (.ingest b) s = .next t ∧ t.result = some .done ∧ t.link.rxbuf = s.link.rxbuf ++ [b] ∧ t.link.expected = none ∧
      t.sent = s.sent ∧ timerSideKept s t

/-- The length latch (R162): the 4th byte makes the expected size `L + 6` without wraparound and emits nothing; a later byte
that does not complete the frame leaves it as it is and emits nothing. -/
def Obligations.FourthByteLatchesTheExpectedSize : Prop :=
  ∀ (s : State) (b : Byte), Callback.onByte ∉ s.inside →
    (s.link.rxbuf.length = 3 →
      ∃ t, exec (.ingest b) s = .next t ∧ t.result = some .done ∧ t.link.rxbuf = s.link.rxbuf ++ [b] ∧
        t.link.expected = some (b.toNat + 6) ∧ t.sent = s.sent ∧ timerSideKept s t) ∧
    (4 ≤ s.link.rxbuf.length → s.link.expected ≠ some (s.link.rxbuf.length + 1) →
      ∃ t, exec (.ingest b) s = .next t ∧ t.result = some .done ∧ t.link.rxbuf = s.link.rxbuf ++ [b] ∧
        t.link.expected = s.link.expected ∧ t.sent = s.sent ∧ timerSideKept s t)

/-- The byte that completes a frame (R161, R164, R165, R166, R169): the whole reply is emitted by that INGEST, the scan reply for
command 0x20 and else the frame itself, and LINK is empty again (`expected` by decision D20, the connected sink by D21; log entries
20, 22). -/
def Obligations.CompletingByteEmitsTheReply : Prop :=
  ∀ (s : State) (b : Byte), Callback.onByte ∉ s.inside → s.sinkConnected = true → s.sinkQuiet → 4 ≤ s.link.rxbuf.length →
    s.link.expected = some (s.link.rxbuf.length + 1) →
    ∃ t, exec (.ingest b) s = .next t ∧ t.result = some .done ∧ t.link = { rxbuf := [], expected := none } ∧ timerSideKept s t ∧
      (s.link.rxbuf[2]? = some 0x20 → t.sent = s.sent ++ [0xBC, 0xCF, 0x20, 0x01, 0x00, 0x21, 0x62]) ∧
      (s.link.rxbuf[2]? ≠ some 0x20 → t.sent = s.sent ++ (s.link.rxbuf ++ [b]))

/-- FRAME_SCAN (R167): a completed frame with command byte 0x20 is answered with the same seven bytes whatever else it holds, and the
buffer is cleared. -/
def Obligations.ScanFrameGetsTheFixedReply : Prop :=
  ∀ s : State, s.sinkConnected = true → s.sinkQuiet → s.link.expected = some s.link.rxbuf.length → s.link.rxbuf[2]? = some 0x20 →
    ∃ t, exec .frameScan s = .next t ∧ t.sent = s.sent ++ [0xBC, 0xCF, 0x20, 0x01, 0x00, 0x21, 0x62] ∧ t.link.rxbuf = [] ∧
      timerSideKept s t

/-- FRAME_ECHO (R168): a completed frame with any other command byte leaves byte for byte as it arrived, in order, and the buffer is
cleared. -/
def Obligations.OtherFramesAreEchoedVerbatim : Prop :=
  ∀ (s : State) (c : Byte), s.sinkConnected = true → s.sinkQuiet → s.link.expected = some s.link.rxbuf.length → s.link.rxbuf[2]? = some c →
    c ≠ 0x20 →
    ∃ t, exec .frameEcho s = .next t ∧ t.sent = s.sent ++ s.link.rxbuf ∧ t.link.rxbuf = [] ∧ timerSideKept s t

/-- RESET_LINK (R211): the buffer empty and the expected size unbounded from every state, nothing emitted, TIMER not touched; refused
only from inside LINK's own `onByte` (the refusal is decision D21; log entry 21). -/
def Obligations.ResetLinkEmptiesTheBuffer : Prop :=
  ∀ s : State,
    (Callback.onByte ∉ s.inside →
      ∃ t, exec .resetLink s = .next t ∧ t.result = some .done ∧ t.link.rxbuf = [] ∧ t.link.expected = none ∧ t.sent = s.sent ∧
        timerSideKept s t) ∧
    (Callback.onByte ∈ s.inside → exec .resetLink s = .refused .reentrantLinkCall)

/-- The scan reply, and a second construction (R170's example, R171): the checksum bytes are 0x21 and 0x62. -/
def Obligations.ScanReplyIsTheSevenBytes : Prop :=
  buildFrame 0x20 1 [0x00] = [0xBC, 0xCF, 0x20, 0x01, 0x00, 0x21, 0x62] ∧
  buildFrame 0x05 0 [] = [0xBC, 0xCF, 0x05, 0x00, 0x05, 0x0A]

/-- The closed form of frame construction (R172): header, command, length, payload, then the sum modulo 256 of the bytes from the command
on, and the sum of the partial sums, in which the command byte weighs `n + 2`, the length byte `n + 1` and payload byte `k` `n - k`. Outside the
domain, a length of at most 255 with a payload of that length, it is not defined (U12, by decision D22; log entry 23). -/
def Obligations.ChecksumsHaveTheirClosedForm : Prop :=
  (∀ (command : Byte) (n : Nat) (payload : List Byte),
    (buildFrameChecked command n payload).isSome = true ↔ n ≤ 255 ∧ payload.length = n) ∧
  ∀ (command : Byte) (payload : List Byte), payload.length ≤ 255 →
    buildFrame command payload.length payload =
      [0xBC, 0xCF, command, BitVec.ofNat 8 payload.length] ++ payload ++
        [ BitVec.ofNat 8 (command.toNat + payload.length + ((List.range payload.length).map (fun k => (payload.getD k 0).toNat)).sum),
          BitVec.ofNat 8
            ((payload.length + 2) * command.toNat + (payload.length + 1) * payload.length +
              ((List.range payload.length).map (fun k => (payload.length - k) * (payload.getD k 0).toNat)).sum) ]

/-- One whole frame into an empty LINK (R176, E5, E6): no proper prefix emits anything, the last byte makes exactly one reply, and LINK is
empty afterwards (`expected` unbounded again by decision D20, the connected sink by D21; log entries 20 and 22). -/
def Obligations.OneFrameMakesExactlyOneReply : Prop :=
  ∀ (s : State) (f : List Byte), Callback.onByte ∉ s.inside → s.sinkConnected = true → s.sinkQuiet → s.link = { rxbuf := [], expected := none } →
    splitFrame f = some (f, []) →
    (∀ n, n < f.length → ∃ t, execAll (receives (f.take n)) s = .next t ∧ t.sent = s.sent ∧ t.link.rxbuf = f.take n) ∧
    (∃ t, execAll (receives f) s = .next t ∧ t.link = { rxbuf := [], expected := none } ∧ timerSideKept s t ∧
      (f[2]? = some 0x20 → t.sent = s.sent ++ [0xBC, 0xCF, 0x20, 0x01, 0x00, 0x21, 0x62]) ∧
      (f[2]? ≠ some 0x20 → t.sent = s.sent ++ f))

/-- LINK over any byte stream is the stream decoder with a reply for every frame (R72, R161, R166, R223): the emissions are the replies of
the frames cut off by counting, in order, and the buffer holds the bytes of the frame not complete yet (`expected` after a completed
frame is decision D20, the connected sink D21; log entries 20 and 22). -/
def Obligations.ByteStreamIsAnsweredFrameByFrame : Prop :=
  ∀ (s : State) (bs : List Byte), Callback.onByte ∉ s.inside → s.sinkConnected = true → s.sinkQuiet → s.link = { rxbuf := [], expected := none } →
    ∃ t, execAll (receives bs) s = .next t ∧ timerSideKept s t ∧
      t.sent = s.sent ++ (cutFrames bs.length bs).1.flatMap replyTo ∧
      t.link.rxbuf = (cutFrames bs.length bs).2 ∧ t.link.expected = frameTotal (cutFrames bs.length bs).2

/-- A frame that completes with no sink connected is refused by name, by INGEST and by both handlers (R215, U11, by decision D21; log
entry 22). -/
def Obligations.CompletingWithoutASinkIsRefused : Prop :=
  ∀ (s : State) (b : Byte), s.sinkConnected = false →
    (Callback.onByte ∉ s.inside → 4 ≤ s.link.rxbuf.length → s.link.expected = some (s.link.rxbuf.length + 1) →
      exec (.ingest b) s = .refused .sinkAbsent) ∧
    (s.link.expected = some s.link.rxbuf.length → s.link.rxbuf[2]? = some 0x20 → exec .frameScan s = .refused .sinkAbsent) ∧
    (s.link.expected = some s.link.rxbuf.length → s.link.rxbuf[2]? ≠ some 0x20 → exec .frameEcho s = .refused .sinkAbsent)

/-- The handlers without their operand are refused by name (the model's choice, log entry 24: R167 and R168 name the completed frame as
operand). -/
def Obligations.HandlersWithoutTheirFrameAreRefused : Prop :=
  ∀ s : State,
    ((s.link.expected ≠ some s.link.rxbuf.length ∨ s.link.rxbuf[2]? ≠ some 0x20) →
      exec .frameScan s = .refused .noSuchCompletedFrame) ∧
    ((s.link.expected ≠ some s.link.rxbuf.length ∨ s.link.rxbuf[2]? = some 0x20) →
      exec .frameEcho s = .refused .noSuchCompletedFrame)

/-! ### Whole-machine rules -/

/-- The invariant of CORE holds at reset. -/
def Obligations.InvariantHoldsAtReset : Prop := State.reset.Inv

/-- Every step keeps the invariant (R12, R13, R27): the divider in 1 to 2^32, the phase below it, and LINK's buffer and expected size
related as between operations. -/
def Obligations.EveryStepKeepsTheInvariant : Prop :=
  ∀ s t : State, s.Inv → step s = .next t → t.Inv

/-- LINK never holds more than 260 bytes between operations (R26, R27, R225). -/
def Obligations.BufferNeverExceeds260Bytes : Prop :=
  ∀ s t : State, s.Inv → step s = .next t → t.link.rxbuf.length ≤ 260 ∧ ∀ n, t.link.expected = some n → 6 ≤ n ∧ n ≤ 261

/-- TIMER and LINK share no state (R2): an operation of one leaves the other's variables and outputs alone, and does the same whatever
they are, where no consumer calls the other unit from inside a callback. -/
def Obligations.TimerAndLinkShareNoState : Prop :=
  (∀ (i : Instr) (s : State) (l : Link), unitOf i = .timer → s.irqQuiet →
    exec i (s.withLink l) = outcomeWithLink l (exec i s) ∧ ∀ t, exec i s = .next t → linkSideKept s t) ∧
  (∀ (i : Instr) (s : State) (x : Timer), unitOf i = .link → s.sinkQuiet →
    exec i { s with timer := x } = outcomeWithTimer x (exec i s) ∧ ∀ t, exec i s = .next t → timerSideKept s t)

/-- Re-entrancy (R54, by decision D21; log entry 21). A call from an output callback into the unit that is emitting is refused (FRAME_SCAN
and FRAME_ECHO are no inputs, so they are not named). A call into the other unit is an ordinary operation, run at the point of the
callback: what the consumer of an `irq` notification calls runs after the change is notified and before the operation returns, and what
the consumer of `onByte` calls runs after its byte and before the next; a call that stops, stops the whole. And where nothing is called
an operation is the same from inside the other unit's callback as from outside. -/
def Obligations.CallbacksMayOperateOnlyTheOtherUnit : Prop :=
  (∀ (i : Instr) (s : State), unitOf i = .timer → Callback.irqChange ∈ s.inside → exec i s = .refused .reentrantTimerCall) ∧
  (∀ (b : Byte) (s : State), Callback.onByte ∈ s.inside →
    exec (.ingest b) s = .refused .reentrantLinkCall ∧ exec .resetLink s = .refused .reentrantLinkCall) ∧
  (∀ (i : Instr) (s t : State), unitOf i = .timer → exec i { s with irqCalls := [] :: s.irqCalls.tail } = .next t →
    exec i s =
      (if t.irq = s.irq then .next { t with irqCalls := s.irqCalls }
       else
        andThen (execCalls (s.irqCalls.headD []) { t with inside := .irqChange :: s.inside, result := s.result })
          (fun u => .next { u with inside := s.inside, result := t.result }))) ∧
  (∀ (b : Byte) (s : State), Callback.onByte ∉ s.inside → s.sinkConnected = true → 4 ≤ s.link.rxbuf.length →
    s.link.expected = some (s.link.rxbuf.length + 1) →
    exec (.ingest b) s =
      andThen (emission (replyTo (s.link.rxbuf ++ [b])) { s with link := { s.link with rxbuf := s.link.rxbuf ++ [b] } })
        (fun t => .next { t with link := { rxbuf := [], expected := none }, result := some .done })) ∧
  (∀ (i : Instr) (s : State), unitOf i = .timer → Callback.irqChange ∉ s.inside → s.irqQuiet →
    exec i s = outcomeInside s.inside (exec i { s with inside := [] })) ∧
  (∀ (i : Instr) (s : State), unitOf i = .link → Callback.onByte ∉ s.inside → s.sinkQuiet →
    exec i s = outcomeInside s.inside (exec i { s with inside := [] }))

/-- No operation touches the ports' side of the state, but for taking off what the consumers call, and what has been emitted, notified,
signalled or returned stays so, in its order; no ConfigError is ever signalled, the count direction being the constant Ascending (R28,
R50, R52, R182, R21; that it is constant is decision D16, log entry 17, and the record is the model's, log entries 1 and 25). This holds
whatever the consumers call. -/
def Obligations.OperationsKeepThePortsAndExtendTheTraces : Prop :=
  ∀ (i : Instr) (s t : State), exec i s = .next t →
    portsKept s t ∧ s.outputs <+: t.outputs ∧ s.sent <+: t.sent ∧ s.irqNotices <+: t.irqNotices ∧ t.advisories = s.advisories ∧
      t.result.isSome = true

/-! ### The generic register bank -/

/-- TIMER's registers as a bank give exactly the register rules (R99, R92, R94, R97), for every offset and word: with hooks alone, where no
stored value is consulted or changed, and with the four fields plain that R99 lets be plain, whose stored values, in R90's range, the hooks of
other fields read; "the two are indistinguishable". The hook contract is decision D13 (log entry 14). For an unmapped offset, that the access answers a
next state with the outcome recorded is the model's reading of decision D14 (log entry 15). -/
def Obligations.BankOfTimerAgreesWithTheRegisterRules : Prop :=
  ∀ (s : State) (off w : Word) (m : Stored), Callback.irqChange ∉ s.inside →
    (∃ t, exec (decodeRead off) s = .next t ∧
      (match bankRead timerBank off ⟨m, s.timer⟩ with
       | .ok (v, u) => t.result = some (.word v) ∧ u = ⟨m, t.timer⟩
       | .error o => t.result = some (.unmappedAccess o) ∧ t.timer = s.timer) ∧
      ∀ p : BankUnit Timer, plainView p = s.timer → BankUnit.InRange timerBankPlain p →
        match bankRead timerBankPlain off p with
        | .ok (v, u) => t.result = some (.word v) ∧ plainView u = t.timer ∧ u = p
        | .error o => t.result = some (.unmappedAccess o) ∧ t.timer = s.timer) ∧
    (s.irqQuiet → ∃ t, exec (decodeWrite off w) s = .next t ∧
      (match bankWrite timerBank off w ⟨m, s.timer⟩ with
       | .ok u => t.result = some .done ∧ u = ⟨m, t.timer⟩
       | .error o => t.result = some (.unmappedAccess o) ∧ t.timer = s.timer) ∧
      ∀ p : BankUnit Timer, plainView p = s.timer → BankUnit.InRange timerBankPlain p →
        match bankWrite timerBankPlain off w p with
        | .ok u => t.result = some .done ∧ plainView u = t.timer ∧ BankUnit.InRange timerBankPlain u
        | .error o => t.result = some (.unmappedAccess o) ∧ t.timer = s.timer)

/-- A field with no hooks, written and read back (R91, R92, R94, R98): ReadWrite gives the written bits, ReadOnly the stored ones,
WriteOneToClear and WriteZeroToClear clear bit by bit (decision D13; log entry 14) and never set one; bits outside the field read 0. -/
def Obligations.FieldReadsBackAsItsAccessModeSays : Prop :=
  ∀ (σ : Type) (u : BankUnit σ) (f : BankField σ) (off w : Word), f.wf = true → f.writeHook = none → f.readHook = none →
    (u.value (off, f.lo)).toNat < 2 ^ f.width →
    ∃ t v, bankWrite [(off, ⟨[f], none⟩)] off w u = .ok t ∧ t.rest = u.rest ∧ bankRead [(off, ⟨[f], none⟩)] off t = .ok (v, t) ∧
      (∀ j, j < f.lo ∨ f.lo + f.width ≤ j → v.getLsbD j = false) ∧
      (∀ k, k < f.width →
        v.getLsbD (f.lo + k) =
          (match f.mode with
           | .readWrite => w.getLsbD (f.lo + k)
           | .readOnly => (u.value (off, f.lo)).getLsbD k
           | .writeOneToClear => (u.value (off, f.lo)).getLsbD k && !w.getLsbD (f.lo + k)
           | .writeZeroToClear => (u.value (off, f.lo)).getLsbD k && w.getLsbD (f.lo + k)))

/-- A register of any number of fields in any bank (R92, R94, R95). A hook may read and write the whole state of its unit, the stored
value of every field of the bank included. On a write the fields are taken one after the other, in ascending order where the register is
well-formed, each seeing the unit, stored values and all, as the earlier ones left it: a hook runs on every write with the raw slice in
place of the default store, ReadOnly fields run none and store nothing, a field with no hook stores by its mode, and the register's
post-write hook runs once, after all fields. Where a register has no such hook, each of its fields holds what its mode makes of what it
held, and nothing else of the unit changes. On a read the hooks run in the same order and the word is put together from their values.
R90's range of the stored values is kept wherever the hooks keep it. Outside the bank the offset is reported (R97). The hook contract is
decision D13; that a read hook may change a stored value is the model's reading of R92 beside R95 (log entry 14). -/
def Obligations.WriteHooksRunOnEveryWrite : Prop :=
  ∀ (σ : Type) (u : BankUnit σ) (bank : Bank σ) (off w : Word),
    (∀ r, bank.lookup off = some r →
      (fieldsWf r.fields = true → r.fields.Pairwise (fun f g => f.lo + f.width ≤ g.lo)) ∧
      bankRead bank off u =
        .ok (r.fields.foldl
          (fun a f =>
            match f.readHook with
            | some h => (a.1 ||| (((h a.2).1 &&& lowMask f.width) <<< f.lo), (h a.2).2)
            | none => (a.1 ||| (a.2.value (off, f.lo) <<< f.lo), a.2)) (0, u)) ∧
      bankWrite bank off w u =
        .ok ((r.postWrite.getD id)
          (r.fields.foldl
            (fun v f =>
              if f.mode = .readOnly then v
              else
                match f.writeHook with
                | some h => h (f.slice w) v
                | none => v.store (off, f.lo) (defaultStore f.mode (v.value (off, f.lo)) (f.slice w))) u)) ∧
      (fieldsWf r.fields = true → (∀ f ∈ r.fields, f.writeHook = none) → r.postWrite = none →
        ∃ t, bankWrite bank off w u = .ok t ∧ t.rest = u.rest ∧
          (∀ f ∈ r.fields, t.value (off, f.lo) = defaultStore f.mode (u.value (off, f.lo)) (f.slice w)) ∧
          ∀ k, (∀ f ∈ r.fields, (off, f.lo) ≠ k) → t.value k = u.value k)) ∧
    (bankWf bank = true → hooksKeepRange bank → BankUnit.InRange bank u →
      (∀ t, bankWrite bank off w u = .ok t → BankUnit.InRange bank t) ∧
      ∀ v t, bankRead bank off u = .ok (v, t) → BankUnit.InRange bank t) ∧
    (bank.lookup off = none → bankRead bank off u = .error off ∧ bankWrite bank off w u = .error off)

/-- Bank reset (R96): in a well-formed bank every field of every register holds its declared reset value, which is in R90's range, and
nothing else of the unit changes, whatever the hooks (that no hook is invoked is decision D13; log entry 14); a second reset changes
nothing more. The layout, that is every field's bits, mode, reset value and hooks, is no part of what any bank operation changes (R35). -/
def Obligations.BankResetRestoresDeclaredValues : Prop :=
  ∀ (σ : Type) (bank : Bank σ) (u : BankUnit σ), bankWf bank = true →
    (∀ e ∈ bank, ∀ f ∈ e.2.fields, (bankReset bank u).value (e.1, f.lo) = f.reset) ∧
    BankUnit.InRange bank (bankReset bank u) ∧
    (bankReset bank u).rest = u.rest ∧
    (∀ k, (∀ e ∈ bank, ∀ f ∈ e.2.fields, (e.1, f.lo) ≠ k) → (bankReset bank u).value k = u.value k) ∧
    ∀ k, (bankReset bank (bankReset bank u)).value k = (bankReset bank u).value k
end

