-- ==== Sys2Proof/Laws/Bank.lean ====
section
/-! SUPPORT. What the stored values, a read, a write and a reset of the bank do, each said once (R90, R92, R94, R96). -/

namespace Sys2Proof.Machine

/-! ### Stored values -/

@[simp] theorem Stored.get_put (m : Stored) (k j : FieldKey) (v : Word) :
    Stored.get (Stored.put m k v) j = if k = j then v else Stored.get m j := by
  induction m with
  | nil => simp [Stored.put, Stored.get]
  | cons e m ih =>
    by_cases h : e.1 = k
    · subst h; by_cases g : e.1 = j <;> simp [Stored.put, Stored.get, g]
    · simp only [Stored.put, if_neg h, Stored.get, ih]
      by_cases g : k = j
      · subst g; simp [h]
      · simp [g]

@[simp] theorem BankUnit.store_rest {σ : Type} (u : BankUnit σ) (k : FieldKey) (v : Word) : (u.store k v).rest = u.rest := rfl

@[simp] theorem BankUnit.value_store {σ : Type} (u : BankUnit σ) (k j : FieldKey) (v : Word) :
    (u.store k v).value j = if k = j then v else u.value j := Stored.get_put _ _ _ _

/-- A change of the rest of the unit changes no stored value. -/
@[simp] theorem BankUnit.value_mk {σ τ : Type} (u : BankUnit σ) (x : τ) (k : FieldKey) : (BankUnit.mk u.stored x).value k = u.value k := rfl

/-! ### Layouts (R90) -/

/-- The fields of a well-formed register stand in ascending order and apart (R90). -/
theorem fieldsWf_pairwise {σ : Type} {l : List (BankField σ)} (h : fieldsWf l = true) :
    l.Pairwise (fun f g => f.lo + f.width ≤ g.lo) := by
  induction l with
  | nil => exact .nil
  | cons f l ih =>
    simp [fieldsWf] at h
    exact .cons (fun g hg => h.1.2 g hg) (ih h.2)

/-- A field of a well-formed register is well-formed. -/
theorem fieldsWf_field {σ : Type} {l : List (BankField σ)} (h : fieldsWf l = true) : ∀ f ∈ l, f.wf = true := by
  induction l with
  | nil => simp
  | cons f l ih =>
    simp [fieldsWf] at h
    simpa using ⟨h.1.1, ih h.2⟩

/-- Two fields of a well-formed register do not begin at the same bit (R90). -/
theorem fieldsWf_cons {σ : Type} {f : BankField σ} {l : List (BankField σ)} (h : fieldsWf (f :: l) = true) :
    f.wf = true ∧ (∀ g ∈ l, f.lo ≠ g.lo) ∧ fieldsWf l = true := by
  simp [fieldsWf] at h
  refine ⟨h.1.1, fun g hg => ?_, h.2⟩
  have w := h.1.1
  simp only [BankField.wf, Bool.and_eq_true, decide_eq_true_eq] at w
  have := h.1.2 g hg
  omega

/-- A register found in a bank stands there with its offset. -/
theorem bank_lookup_mem {σ : Type} {bank : Bank σ} {off : Word} {r : BankRegister σ} (h : bank.lookup off = some r) :
    (off, r) ∈ bank := by
  induction bank with
  | nil => cases h
  | cons e bank ih =>
    obtain ⟨k, v⟩ := e
    by_cases g : off = k
    · subst g; simp [List.lookup] at h; simp [h]
    · simp only [List.lookup, beq_eq_false_iff_ne.2 g] at h
      exact List.mem_cons_of_mem _ (ih h)

/-- In a well-formed bank each offset stands once (R90). -/
theorem bankWf_cons {σ : Type} {e : Word × BankRegister σ} {bank : Bank σ} (h : bankWf (e :: bank) = true) :
    fieldsWf e.2.fields = true ∧ (∀ d ∈ bank, e.1 ≠ d.1) ∧ bankWf bank = true := by
  simp only [bankWf, List.map_cons, List.nodup_cons, List.all_cons, Bool.and_eq_true, decide_eq_true_eq] at h ⊢
  exact ⟨h.2.1, fun d hd c => h.1.1 (c ▸ List.mem_map_of_mem hd), h.1.2, h.2.2⟩

/-- Every register of a well-formed bank is well-formed. -/
theorem bankWf_register {σ : Type} {bank : Bank σ} (h : bankWf bank = true) : ∀ e ∈ bank, fieldsWf e.2.fields = true := by
  simp only [bankWf, Bool.and_eq_true, List.all_eq_true] at h
  exact h.2

/-- In a well-formed bank a field is known by its register's offset and its lowest bit (R90). -/
theorem bankWf_key {σ : Type} {bank : Bank σ} (h : bankWf bank = true) :
    ∀ e ∈ bank, ∀ d ∈ bank, ∀ f ∈ e.2.fields, ∀ g ∈ d.2.fields, (e.1, f.lo) = (d.1, g.lo) → f.width = g.width := by
  have inner : ∀ l : List (BankField σ), fieldsWf l = true → ∀ f ∈ l, ∀ g ∈ l, f.lo = g.lo → f.width = g.width := by
    intro l
    induction l with
    | nil => simp
    | cons a l ih =>
      intro w f hf g hg k
      obtain ⟨_, apart, wl⟩ := fieldsWf_cons w
      rcases List.mem_cons.1 hf with ef | lf <;> rcases List.mem_cons.1 hg with eg | lg
      · rw [ef, eg]
      · exact absurd (ef ▸ k) (apart g lg)
      · exact absurd (eg ▸ k.symm) (apart f lf)
      · exact ih wl f lf g lg k
  induction bank with
  | nil => simp
  | cons b bank ih =>
    intro e he d hd f hf g hg k
    obtain ⟨wb, apart, wl⟩ := bankWf_cons h
    rw [Prod.mk.injEq] at k
    rcases List.mem_cons.1 he with eb | le <;> rcases List.mem_cons.1 hd with db | ld
    · exact inner _ wb f (eb ▸ hf) g (db ▸ hg) k.2
    · exact absurd (eb ▸ k.1) (apart d ld)
    · exact absurd (db ▸ k.1.symm) (apart e le)
    · exact ih wl e le d ld f hf g hg (Prod.ext k.1 k.2)

/-! ### Read and write -/

/-- The fields are read one after the other, each seeing the unit as the earlier ones left it (R92, R95). -/
theorem readFields_eq_foldl {σ : Type} (off : Word) (l : List (BankField σ)) (acc : Word) (u : BankUnit σ) :
    readFields off l acc u = l.foldl (fun a f => (a.1 ||| ((f.read off a.2).1 <<< f.lo), (f.read off a.2).2)) (acc, u) := by
  induction l generalizing acc u with
  | nil => rfl
  | cons f l ih => simp only [readFields, ih, List.foldl]

/-- The fields are written one after the other (R94, R95). -/
theorem writeFields_eq_foldl {σ : Type} (off w : Word) (l : List (BankField σ)) (u : BankUnit σ) :
    writeFields off w l u = l.foldl (fun v f => f.write off w v) u := by
  induction l generalizing u with
  | nil => rfl
  | cons f l ih => simp only [writeFields, ih, List.foldl]

/-- What a field with no write hook does on a write (R91, R94). -/
theorem BankField.write_plain {σ : Type} {f : BankField σ} (h : f.writeHook = none) (off w : Word) (u : BankUnit σ) :
    (f.write off w u).rest = u.rest ∧
    ∀ k, (f.write off w u).value k =
      if (off, f.lo) = k then defaultStore f.mode (u.value (off, f.lo)) (f.slice w) else u.value k := by
  unfold BankField.write
  split
  · case isTrue m => exact ⟨rfl, fun k => by split <;> simp_all [defaultStore]⟩
  · rw [h]; exact ⟨rfl, fun k => BankUnit.value_store _ _ _ _⟩

/-- A field's slice is in the field's range (R63, R90). -/
theorem BankField.slice_lt {σ : Type} {f : BankField σ} (h : f.wf = true) (w : Word) : (f.slice w).toNat < 2 ^ f.width := by
  simp only [BankField.wf, Bool.and_eq_true, decide_eq_true_eq] at h
  have p : 2 ^ f.width ≤ 2 ^ 32 := Nat.pow_le_pow_right (by omega) (by omega)
  have q : 0 < 2 ^ f.width := Nat.pos_of_ne_zero (by simp)
  have m : (lowMask f.width).toNat = 2 ^ f.width - 1 := by
    simp only [lowMask, BitVec.toNat_ofNat]; exact Nat.mod_eq_of_lt (by omega)
  rw [BankField.slice, BitVec.toNat_and, m]
  exact Nat.lt_of_le_of_lt Nat.and_le_right (by omega)

/-- The default store keeps R90's range. -/
theorem defaultStore_lt {mode : AccessMode} {stored s : Word} {n : Nat} (h : stored.toNat < n) (k : s.toNat < n) :
    (defaultStore mode stored s).toNat < n := by
  cases mode <;> simp only [defaultStore]
  · exact k
  · exact h
  · rw [BitVec.toNat_and]; exact Nat.lt_of_le_of_lt Nat.and_le_left h
  · rw [BitVec.toNat_and]; exact Nat.lt_of_le_of_lt Nat.and_le_left h

/-- A store into one field of a well-formed bank, of a value in that field's range, keeps R90's range. -/
theorem BankUnit.InRange.store {σ : Type} {bank : Bank σ} (wf : bankWf bank = true) {u : BankUnit σ} (h : BankUnit.InRange bank u)
    {e : Word × BankRegister σ} (he : e ∈ bank) {f : BankField σ} (hf : f ∈ e.2.fields) {v : Word} (hv : v.toNat < 2 ^ f.width) :
    BankUnit.InRange bank (u.store (e.1, f.lo) v) := by
  intro d hd g hg
  rw [BankUnit.value_store]
  split
  · case isTrue k => rw [← bankWf_key wf e he d hd f hf g hg k]; exact hv
  · exact h d hd g hg

/-- A field of the bank on a write keeps R90's range, where its hook does (R94). -/
theorem BankField.write_inRange {σ : Type} {bank : Bank σ} (wf : bankWf bank = true) (hooks : hooksKeepRange bank)
    {e : Word × BankRegister σ} (he : e ∈ bank) {f : BankField σ} (hf : f ∈ e.2.fields) (w : Word) {u : BankUnit σ}
    (h : BankUnit.InRange bank u) : BankUnit.InRange bank (f.write e.1 w u) := by
  have fwf := fieldsWf_field (bankWf_register wf e he) f hf
  unfold BankField.write
  split
  · exact h
  · split
    · case h_1 g eq => exact ((hooks e he).1 f hf).1 g eq _ _ h
    · exact h.store wf he hf (defaultStore_lt (h e he f hf) (BankField.slice_lt fwf w))

/-- Fields of one register of the bank on a write keep R90's range, where their hooks do (R94). -/
theorem writeFields_inRange {σ : Type} {bank : Bank σ} (wf : bankWf bank = true) (hooks : hooksKeepRange bank)
    {e : Word × BankRegister σ} (he : e ∈ bank) (w : Word) {l : List (BankField σ)} (sub : ∀ f ∈ l, f ∈ e.2.fields) {u : BankUnit σ}
    (h : BankUnit.InRange bank u) : BankUnit.InRange bank (writeFields e.1 w l u) := by
  induction l generalizing u with
  | nil => exact h
  | cons f l ih =>
    exact ih (fun g hg => sub g (List.mem_cons_of_mem _ hg))
      (BankField.write_inRange wf hooks he (sub f (List.mem_cons_self ..)) w h)

/-- Fields of one register of the bank on a read keep R90's range, where their hooks do (R92). -/
theorem readFields_inRange {σ : Type} {bank : Bank σ} (hooks : hooksKeepRange bank) {e : Word × BankRegister σ} (he : e ∈ bank)
    {l : List (BankField σ)} (sub : ∀ f ∈ l, f ∈ e.2.fields) {acc : Word} {u : BankUnit σ} (h : BankUnit.InRange bank u) :
    BankUnit.InRange bank (readFields e.1 l acc u).2 := by
  induction l generalizing acc u with
  | nil => exact h
  | cons f l ih =>
    refine ih (fun g hg => sub g (List.mem_cons_of_mem _ hg)) ?_
    unfold BankField.read
    split
    · case h_1 g eq => exact ((hooks e he).1 f (sub f (List.mem_cons_self ..))).2 g eq _ h
    · exact h

/-- A change of the unit that leaves the stored values alone keeps R90's range. -/
theorem BankUnit.InRange.of_stored {σ : Type} {bank : Bank σ} {u v : BankUnit σ} (h : BankUnit.InRange bank u)
    (e : v.stored = u.stored) : BankUnit.InRange bank v := fun d hd f hf => by
  have r := h d hd f hf
  rwa [BankUnit.value, e]

/-- The hooks of a field leave every stored value alone. -/
def BankField.StoredKept {σ : Type} (f : BankField σ) : Prop :=
  (∀ h, f.writeHook = some h → ∀ s u, (h s u).stored = u.stored) ∧ ∀ h, f.readHook = some h → ∀ u, (h u).2.stored = u.stored

/-- A layout whose hooks leave the stored values alone keeps R90's range. -/
theorem hooksKeepRange_of_storedKept {σ : Type} {bank : Bank σ}
    (h : ∀ e ∈ bank, (∀ f ∈ e.2.fields, f.StoredKept) ∧ ∀ g, e.2.postWrite = some g → ∀ u, (g u).stored = u.stored) :
    hooksKeepRange bank := by
  intro e he
  obtain ⟨fields, post⟩ := h e he
  exact ⟨fun f hf => ⟨fun g eq s u r => BankUnit.InRange.of_stored r ((fields f hf).1 g eq s u),
    fun g eq u r => BankUnit.InRange.of_stored r ((fields f hf).2 g eq u)⟩,
    fun g eq u r => BankUnit.InRange.of_stored r (post g eq u)⟩

/-- The hooks of TIMER's layouts leave the stored values alone, where those of the four fields do (R99). -/
theorem timerBankOver_hooksKeepRange {view : BankUnit Timer → Timer} {a b c d : BankField Timer}
    (four : ∀ f ∈ [a, b, c, d], f.StoredKept) : hooksKeepRange (timerBankOver view a b c d) := by
  simp only [List.forall_mem_cons] at four
  obtain ⟨ha, hb, hc, hd, _⟩ := four
  have bit : ∀ lo g p, (varBit view lo g p).StoredKept := by
    intro lo g p; constructor <;> (intro h e; cases e; intros; rfl)
  have word : ∀ r g p, (varWord view r g p).StoredKept := by
    intro r g p; constructor <;> (intro h e; cases e; intros; rfl)
  have own : ∀ f ∈ [tagField, statusField view, eventgenField view], f.StoredKept := by
    intro f hf
    simp only [List.mem_cons, List.not_mem_nil, or_false] at hf
    rcases hf with rfl | rfl | rfl <;>
      (constructor <;> (intro h e; cases e; intros; first | rfl | (simp only; split <;> rfl)))
  simp only [List.forall_mem_cons] at own
  obtain ⟨tag, status, eventgen, _⟩ := own
  refine hooksKeepRange_of_storedKept ?_
  simp only [timerBankOver, List.forall_mem_cons, List.not_mem_nil, false_imp_iff, implies_true, and_true]
  exact ⟨⟨⟨bit .., ha, hb, bit .., hc⟩, by simp⟩, ⟨⟨hd, tag⟩, by simp⟩, ⟨status, fun h e u => by cases e; rfl⟩, ⟨eventgen, by simp⟩,
    ⟨word .., by simp⟩, ⟨word .., by simp⟩, ⟨word .., by simp⟩⟩

/-- TIMER's bank with four plain fields keeps R90's range (R99). -/
theorem timerBankPlain_hooksKeepRange : hooksKeepRange timerBankPlain :=
  timerBankOver_hooksKeepRange (by simp [plainBit, BankField.StoredKept])

/-- R90's conditions hold of TIMER's layout with four plain fields. -/
theorem timerBankPlain_wf : bankWf timerBankPlain = true := by
  have h := Config.initialLimit.isLt
  simp [bankWf, timerBankPlain, timerBankOver, fieldsWf, BankField.wf, varBit, varWord, tagField, statusField, eventgenField,
    plainBit, h]

/-- R90's conditions hold of TIMER's layout as R99 assigns it. -/
theorem timerBank_wf : bankWf timerBank = true := by
  have h := Config.initialLimit.isLt
  simp [bankWf, timerBank, timerBankOver, fieldsWf, BankField.wf, varBit, varWord, tagField, statusField, eventgenField, h]

/-! ### Reset (R96) -/

@[simp] theorem resetFields_rest {σ : Type} (off : Word) (l : List (BankField σ)) (u : BankUnit σ) :
    (resetFields off l u).rest = u.rest := by
  induction l generalizing u with
  | nil => rfl
  | cons f l ih => rw [resetFields, ih]; rfl

/-- A reset of one register touches no other field. -/
theorem resetFields_other {σ : Type} {off : Word} {l : List (BankField σ)} {k : FieldKey} (h : ∀ f ∈ l, (off, f.lo) ≠ k)
    (u : BankUnit σ) : (resetFields off l u).value k = u.value k := by
  induction l generalizing u with
  | nil => rfl
  | cons f l ih =>
    rw [resetFields, ih (fun g hg => h g (List.mem_cons_of_mem _ hg)), BankUnit.value_store, if_neg (h f (List.mem_cons_self ..))]

/-- A reset of one well-formed register leaves each of its fields at its reset value. -/
theorem resetFields_value {σ : Type} {off : Word} {l : List (BankField σ)} (wf : fieldsWf l = true) (u : BankUnit σ) :
    ∀ f ∈ l, (resetFields off l u).value (off, f.lo) = f.reset := by
  induction l generalizing u with
  | nil => simp
  | cons f l ih =>
    obtain ⟨_, apart, wl⟩ := fieldsWf_cons wf
    intro g hg
    rcases List.mem_cons.1 hg with rfl | hg
    · rw [resetFields, resetFields_other (fun x hx c => apart x hx (by simpa using c.symm)), BankUnit.value_store, if_pos rfl]
    · exact ih wl _ g hg

@[simp] theorem bankReset_rest {σ : Type} (bank : Bank σ) (u : BankUnit σ) : (bankReset bank u).rest = u.rest := by
  induction bank generalizing u with
  | nil => rfl
  | cons e bank ih => rw [bankReset, ih, resetFields_rest]

/-- A bank reset touches no field the bank does not have. -/
theorem bankReset_other {σ : Type} {bank : Bank σ} {k : FieldKey} (h : ∀ e ∈ bank, ∀ f ∈ e.2.fields, (e.1, f.lo) ≠ k)
    (u : BankUnit σ) : (bankReset bank u).value k = u.value k := by
  induction bank generalizing u with
  | nil => rfl
  | cons e bank ih =>
    rw [bankReset, ih (fun d hd => h d (List.mem_cons_of_mem _ hd)), resetFields_other (h e (List.mem_cons_self ..))]

end Sys2Proof.Machine
end

