-- ==== Sys2Proof/Laws/Counting.lean ====
section
/-! SUPPORT. What the counting operations do, each said once: the limit event, the tick, the forced event, the reset. -/

namespace Sys2Proof.Machine

/-- The limit event whole (R143, R144, R145). -/
theorem Timer.limitEvent_eq (t : Timer) :
    t.limitEvent =
      { t with
        value := 0
        enabled := t.enabled && decide (t.mode = .periodic)
        limit := if t.updateDisable then t.limit else t.autoReloadValue
        interruptFlag := t.interruptFlag || (!t.updateDisable && t.interruptEnable) } := by
  rcases t with ⟨v, p, d, l, a, en, ud, urs, m, pe, ie, fl⟩
  cases m <;> cases ud <;> cases ie <;> cases en <;> simp [Timer.limitEvent, Timer.raiseFlag]

/-- The forced event with Ascending (R147). -/
theorem Timer.forcedEvent_ascending (t : Timer) :
    t.forcedEvent .ascending =
      (if t.updateDisable then t
       else
        { t with
          value := 0
          presc := 0
          interruptFlag := t.interruptFlag || (!t.updateRequestSource && t.interruptEnable) }, []) := by
  rcases t with ⟨v, p, d, l, a, en, ud, urs, m, pe, ie, fl⟩
  cases ud <;> cases urs <;> cases ie <;> simp [Timer.forcedEvent, Timer.raiseFlag]

/-- RESET_TIMER leaves the power-on state, whatever was there (R210, R213). -/
@[simp] theorem Timer.resetAll_eq (t : Timer) : t.resetAll = Timer.powerOn := rfl

/-- Past the limit is exactly R142's condition. -/
theorem Timer.pastLimit_eq_true (t : Timer) : t.pastLimit = true ↔ t.limit = 0 ∨ t.limit.toNat ≤ t.value.toNat := by
  simp [Timer.pastLimit]

/-- Not past the limit is `value < limit`. -/
theorem Timer.pastLimit_eq_false (t : Timer) : t.pastLimit = false ↔ t.value.toNat < t.limit.toNat := by
  rw [← Bool.not_eq_true, Timer.pastLimit_eq_true]
  constructor
  · intro h; omega
  · rintro h (z | z)
    · rw [z] at h; simp at h
    · omega

/-- Inside the domain the increment does not overflow (R149). -/
theorem Timer.succ_value_toNat {t : Timer} (h : t.value.toNat < t.limit.toNat) : (t.value + 1).toNat = t.value.toNat + 1 := by
  have := t.limit.isLt
  have one : (1 : Word).toNat = 1 := rfl
  rw [BitVec.toNat_add, one]
  omega

/-- A Disabled tick (R152). -/
theorem Timer.tick_disabled {t : Timer} (h : t.enabled = false) : t.tick = some t := by simp [Timer.tick, h]

/-- An Enabled tick outside the domain (R142). -/
theorem Timer.tick_pastLimit {t : Timer} (h : t.enabled = true) (p : t.pastLimit = true) : t.tick = none := by
  simp [Timer.tick, h, p]

/-- An Enabled tick inside the domain is one counted tick (R141). -/
theorem Timer.tick_advance {t : Timer} (h : t.enabled = true) (v : t.value.toNat < t.limit.toNat) : t.tick = some t.advance := by
  simp [Timer.tick, h, (Timer.pastLimit_eq_false t).2 v]

/-- An Enabled tick that does not end a group (R141). -/
theorem Timer.tick_phase {t : Timer} (h : t.enabled = true) (v : t.value.toNat < t.limit.toNat) (p : t.presc + 1 < t.divider) :
    t.tick = some { t with presc := t.presc + 1 } := by
  rw [Timer.tick_advance h v, Timer.advance, if_neg (Nat.not_le.2 p)]

/-- An Enabled tick that ends a group below the limit (R141). -/
theorem Timer.tick_increment {t : Timer} (h : t.enabled = true) (v : t.value.toNat + 1 < t.limit.toNat)
    (p : t.divider ≤ t.presc + 1) : t.tick = some { t with presc := 0, value := t.value + 1 } := by
  have ne : t.value + 1 ≠ t.limit := fun e => by
    have := Timer.succ_value_toNat (t := t) (by omega)
    rw [e] at this; omega
  rw [Timer.tick_advance h (by omega), Timer.advance, if_pos p]
  exact congrArg some (if_neg ne)

/-- An Enabled tick whose increment reaches the limit (R141, R143 to R145). -/
theorem Timer.tick_limit {t : Timer} (h : t.enabled = true) (v : t.value.toNat + 1 = t.limit.toNat)
    (p : t.divider ≤ t.presc + 1) :
    t.tick = some
      { t with
        value := 0
        presc := 0
        enabled := decide (t.mode = .periodic)
        limit := if t.updateDisable then t.limit else t.autoReloadValue
        interruptFlag := t.interruptFlag || (!t.updateDisable && t.interruptEnable) } := by
  have e : t.value + 1 = t.limit := BitVec.eq_of_toNat_eq (by rw [Timer.succ_value_toNat (by omega)]; exact v)
  rw [Timer.tick_advance h (by omega), Timer.advance, if_pos p]
  refine congrArg some ((if_pos e).trans ?_)
  rw [Timer.limitEvent_eq]
  simp [h]

/-- When a limit event is due (R141). -/
theorem Timer.limitDue_iff (t : Timer) :
    t.limitDue = true ↔ t.enabled = true ∧ t.divider ≤ t.presc + 1 ∧ t.value.toNat + 1 = t.limit.toNat := by
  simp only [Timer.limitDue, Bool.and_eq_true, decide_eq_true_eq]
  constructor
  · rintro ⟨⟨⟨a, b⟩, c⟩, d⟩; exact ⟨a, c, d⟩
  · rintro ⟨a, c, d⟩; exact ⟨⟨⟨a, by omega⟩, c⟩, d⟩

/-- Everything a tick can do (R141, R142, R152), guards included. -/
theorem Timer.tick_cases {t u : Timer} (h : t.tick = some u) :
    (t.enabled = false ∧ u = t) ∨
    (t.enabled = true ∧ t.value.toNat < t.limit.toNat ∧ t.presc + 1 < t.divider ∧ u = { t with presc := t.presc + 1 }) ∨
    (t.enabled = true ∧ t.value.toNat + 1 < t.limit.toNat ∧ t.divider ≤ t.presc + 1 ∧
      u = { t with presc := 0, value := t.value + 1 }) ∨
    (t.limitDue = true ∧
      u = { t with
        value := 0
        presc := 0
        enabled := decide (t.mode = .periodic)
        limit := if t.updateDisable then t.limit else t.autoReloadValue
        interruptFlag := t.interruptFlag || (!t.updateDisable && t.interruptEnable) }) := by
  cases e : t.enabled with
  | false => rw [Timer.tick_disabled e] at h; exact .inl ⟨rfl, (Option.some.inj h).symm⟩
  | true =>
    cases p : t.pastLimit with
    | true => rw [Timer.tick_pastLimit e p] at h; cases h
    | false =>
      have v := (Timer.pastLimit_eq_false t).1 p
      by_cases g : t.presc + 1 < t.divider
      · rw [Timer.tick_phase e v g] at h
        exact .inr (.inl ⟨rfl, v, g, by rw [← Option.some.inj h, e]⟩)
      · by_cases r : t.value.toNat + 1 < t.limit.toNat
        · rw [Timer.tick_increment e r (by omega)] at h
          exact .inr (.inr (.inl ⟨rfl, r, by omega, by rw [← Option.some.inj h, e]⟩))
        · rw [Timer.tick_limit e (by omega) (by omega)] at h
          exact .inr (.inr (.inr ⟨(Timer.limitDue_iff t).2 ⟨e, by omega, by omega⟩, (Option.some.inj h).symm⟩))

/-- WR_EVENTGEN's effect on CORE, whose direction is Ascending (R21, R117, R147): no advisory, ever. -/
theorem Timer.writeEventgen_eq (t : Timer) (w : Word) :
    t.writeEventgen w =
      (if w.getLsbD 0 = true ∧ t.updateDisable = false then
        { t with
          value := 0
          presc := 0
          interruptFlag := t.interruptFlag || (!t.updateRequestSource && t.interruptEnable) }
       else t, []) := by
  unfold Timer.writeEventgen
  rw [show Config.direction = .ascending from rfl, Timer.forcedEvent_ascending]
  cases w.getLsbD 0 <;> cases t.updateDisable <;> rfl

/-- A tick keeps the phase below the divider (R12). -/
theorem Timer.tick_inv {t u : Timer} (h : t.Inv) (e : t.tick = some u) : u.Inv := by
  obtain ⟨one, top, phase⟩ := h
  rcases Timer.tick_cases e with ⟨_, rfl⟩ | ⟨_, _, c, rfl⟩ | ⟨_, _, _, rfl⟩ | ⟨_, rfl⟩
  · exact ⟨one, top, phase⟩
  · exact ⟨one, top, c⟩
  · exact ⟨one, top, one⟩
  · exact ⟨one, top, one⟩

/-- `INITIAL_LIMIT` is in 1 to 2^32 - 1 (R7, D1). -/
theorem initialLimit_range : 1 ≤ Config.initialLimit.toNat ∧ Config.initialLimit.toNat ≤ 2 ^ 32 - 1 := by
  have := Nat.mod_lt Config.initialLimitChoice (show 0 < 2 ^ 32 - 1 by norm_num)
  simp only [Config.initialLimit, BitVec.toNat_ofNat]
  omega

end Sys2Proof.Machine
end

