-- ==== Sys2Proof/Laws/Encoding.lean ====
section
/-! SUPPORT. Small lemmas of the encodings: the offset rows against the list of mapped offsets, and the bits of a field in a read
word. -/

namespace Sys2Proof.Machine

/-- The full mask changes no offset (R77). -/
theorem and_fullMask (off : Word) : off &&& 0xFFFFFFFF = off := by
  rw [show (0xFFFFFFFF : Word) = BitVec.allOnes 32 from rfl, BitVec.and_allOnes]

/-- A mapped offset is the offset of its register (R41, R77). -/
theorem regAt_some {off : Word} {r : Reg} (h : regAt off = some r) : off = offsetOf r := by
  simp only [regAt, Option.map_eq_some_iff] at h
  obtain ⟨row, hr, rfl⟩ := h
  have mem := List.mem_of_find?_eq_some hr
  have takes := List.find?_some hr
  simp only [OffsetRow.takes, beq_iff_eq] at takes
  simp only [offsetRows, List.mem_cons, List.not_mem_nil, or_false] at mem
  rcases mem with rfl | rfl | rfl | rfl | rfl | rfl | rfl <;> (simp only [and_fullMask] at takes; exact takes)

/-- Every register is found at its offset (R41). -/
theorem regAt_offsetOf (r : Reg) : regAt (offsetOf r) = some r := by cases r <;> decide

/-- The decoder's rows leave out exactly the offsets that the check on instructions calls unmapped (R41, R44). -/
theorem isUnmapped_iff (off : Word) : isUnmapped off = true ↔ regAt off = none := by
  constructor
  · intro u
    cases e : regAt off with
    | none => rfl
    | some r => rw [regAt_some e] at u; revert u; cases r <;> decide
  · intro n
    by_contra c
    have mem : off ∈ mappedOffsets := by simpa [isUnmapped] using c
    simp only [mappedOffsets, List.mem_cons, List.not_mem_nil, or_false] at mem
    rcases mem with rfl | rfl | rfl | rfl | rfl | rfl | rfl <;> (revert n; decide)

/-- Bit `j` of a one-bit field's contribution (R63). -/
theorem fieldBit_getLsbD (b : Bool) {lo : Nat} (h : lo < 32) (j : Nat) : (fieldBit b lo).getLsbD j = (b && decide (j = lo)) := by
  cases b
  · simp [fieldBit]
  · rw [show fieldBit true lo = BitVec.twoPow 32 lo by simp [fieldBit, BitVec.twoPow_eq], BitVec.getLsbD_twoPow]
    simp [h, eq_comm]

/-- A Status write as one expression (R115). -/
theorem Timer.writeStatus_eq (t : Timer) (w : Word) :
    t.writeStatus w = { t with interruptFlag := t.interruptFlag && w.getLsbD 0 } := by
  unfold Timer.writeStatus slice1; cases w.getLsbD 0 <;> simp

end Sys2Proof.Machine
end

