-- ==== Sys2Proof/Laws/State.lean ====
section
/-! SUPPORT. One lemma per field per update of the state, each true by rfl, so that no later proof unfolds a record update, and what
each update does to the views of the output record. -/

namespace Sys2Proof.Machine

@[simp] theorem State.withTimer_timer (s : State) (t : Timer) : (s.withTimer t).timer = t := rfl
@[simp] theorem State.withTimer_link (s : State) (t : Timer) : (s.withTimer t).link = s.link := rfl
@[simp] theorem State.withTimer_inputs (s : State) (t : Timer) : (s.withTimer t).inputs = s.inputs := rfl
@[simp] theorem State.withTimer_onByteCalls (s : State) (t : Timer) : (s.withTimer t).onByteCalls = s.onByteCalls := rfl
@[simp] theorem State.withTimer_irqCalls (s : State) (t : Timer) : (s.withTimer t).irqCalls = s.irqCalls := rfl
@[simp] theorem State.withTimer_inside (s : State) (t : Timer) : (s.withTimer t).inside = s.inside := rfl
@[simp] theorem State.withTimer_sinkConnected (s : State) (t : Timer) : (s.withTimer t).sinkConnected = s.sinkConnected := rfl
@[simp] theorem State.withTimer_result (s : State) (t : Timer) : (s.withTimer t).result = s.result := rfl
@[simp] theorem State.withTimer_outputs (s : State) (t : Timer) : (s.withTimer t).outputs = s.outputs := rfl
@[simp] theorem State.withTimer_sent (s : State) (t : Timer) : (s.withTimer t).sent = s.sent := rfl
@[simp] theorem State.withTimer_irqNotices (s : State) (t : Timer) : (s.withTimer t).irqNotices = s.irqNotices := rfl
@[simp] theorem State.withTimer_advisories (s : State) (t : Timer) : (s.withTimer t).advisories = s.advisories := rfl

@[simp] theorem State.withLink_timer (s : State) (l : Link) : (s.withLink l).timer = s.timer := rfl
@[simp] theorem State.withLink_link (s : State) (l : Link) : (s.withLink l).link = l := rfl
@[simp] theorem State.withLink_inputs (s : State) (l : Link) : (s.withLink l).inputs = s.inputs := rfl
@[simp] theorem State.withLink_onByteCalls (s : State) (l : Link) : (s.withLink l).onByteCalls = s.onByteCalls := rfl
@[simp] theorem State.withLink_irqCalls (s : State) (l : Link) : (s.withLink l).irqCalls = s.irqCalls := rfl
@[simp] theorem State.withLink_inside (s : State) (l : Link) : (s.withLink l).inside = s.inside := rfl
@[simp] theorem State.withLink_sinkConnected (s : State) (l : Link) : (s.withLink l).sinkConnected = s.sinkConnected := rfl
@[simp] theorem State.withLink_result (s : State) (l : Link) : (s.withLink l).result = s.result := rfl
@[simp] theorem State.withLink_outputs (s : State) (l : Link) : (s.withLink l).outputs = s.outputs := rfl
@[simp] theorem State.withLink_sent (s : State) (l : Link) : (s.withLink l).sent = s.sent := rfl
@[simp] theorem State.withLink_irqNotices (s : State) (l : Link) : (s.withLink l).irqNotices = s.irqNotices := rfl
@[simp] theorem State.withLink_advisories (s : State) (l : Link) : (s.withLink l).advisories = s.advisories := rfl

@[simp] theorem State.answer_timer (s : State) (r : Result) : (s.answer r).timer = s.timer := rfl
@[simp] theorem State.answer_link (s : State) (r : Result) : (s.answer r).link = s.link := rfl
@[simp] theorem State.answer_inputs (s : State) (r : Result) : (s.answer r).inputs = s.inputs := rfl
@[simp] theorem State.answer_onByteCalls (s : State) (r : Result) : (s.answer r).onByteCalls = s.onByteCalls := rfl
@[simp] theorem State.answer_irqCalls (s : State) (r : Result) : (s.answer r).irqCalls = s.irqCalls := rfl
@[simp] theorem State.answer_inside (s : State) (r : Result) : (s.answer r).inside = s.inside := rfl
@[simp] theorem State.answer_sinkConnected (s : State) (r : Result) : (s.answer r).sinkConnected = s.sinkConnected := rfl
@[simp] theorem State.answer_result (s : State) (r : Result) : (s.answer r).result = some r := rfl
@[simp] theorem State.answer_outputs (s : State) (r : Result) : (s.answer r).outputs = s.outputs := rfl
@[simp] theorem State.answer_sent (s : State) (r : Result) : (s.answer r).sent = s.sent := rfl
@[simp] theorem State.answer_irqNotices (s : State) (r : Result) : (s.answer r).irqNotices = s.irqNotices := rfl
@[simp] theorem State.answer_advisories (s : State) (r : Result) : (s.answer r).advisories = s.advisories := rfl

@[simp] theorem State.within_timer (s : State) (cs : List Callback) : (s.within cs).timer = s.timer := rfl
@[simp] theorem State.within_link (s : State) (cs : List Callback) : (s.within cs).link = s.link := rfl
@[simp] theorem State.within_inputs (s : State) (cs : List Callback) : (s.within cs).inputs = s.inputs := rfl
@[simp] theorem State.within_onByteCalls (s : State) (cs : List Callback) : (s.within cs).onByteCalls = s.onByteCalls := rfl
@[simp] theorem State.within_irqCalls (s : State) (cs : List Callback) : (s.within cs).irqCalls = s.irqCalls := rfl
@[simp] theorem State.within_inside (s : State) (cs : List Callback) : (s.within cs).inside = cs := rfl
@[simp] theorem State.within_sinkConnected (s : State) (cs : List Callback) : (s.within cs).sinkConnected = s.sinkConnected := rfl
@[simp] theorem State.within_result (s : State) (cs : List Callback) : (s.within cs).result = s.result := rfl
@[simp] theorem State.within_outputs (s : State) (cs : List Callback) : (s.within cs).outputs = s.outputs := rfl
@[simp] theorem State.within_sent (s : State) (cs : List Callback) : (s.within cs).sent = s.sent := rfl
@[simp] theorem State.within_irqNotices (s : State) (cs : List Callback) : (s.within cs).irqNotices = s.irqNotices := rfl
@[simp] theorem State.within_advisories (s : State) (cs : List Callback) : (s.within cs).advisories = s.advisories := rfl

@[simp] theorem State.popOnByte_timer (s : State) : s.popOnByte.timer = s.timer := rfl
@[simp] theorem State.popOnByte_link (s : State) : s.popOnByte.link = s.link := rfl
@[simp] theorem State.popOnByte_inputs (s : State) : s.popOnByte.inputs = s.inputs := rfl
@[simp] theorem State.popOnByte_onByteCalls (s : State) : s.popOnByte.onByteCalls = s.onByteCalls.tail := rfl
@[simp] theorem State.popOnByte_irqCalls (s : State) : s.popOnByte.irqCalls = s.irqCalls := rfl
@[simp] theorem State.popOnByte_inside (s : State) : s.popOnByte.inside = s.inside := rfl
@[simp] theorem State.popOnByte_sinkConnected (s : State) : s.popOnByte.sinkConnected = s.sinkConnected := rfl
@[simp] theorem State.popOnByte_result (s : State) : s.popOnByte.result = s.result := rfl
@[simp] theorem State.popOnByte_outputs (s : State) : s.popOnByte.outputs = s.outputs := rfl
@[simp] theorem State.popOnByte_sent (s : State) : s.popOnByte.sent = s.sent := rfl
@[simp] theorem State.popOnByte_irqNotices (s : State) : s.popOnByte.irqNotices = s.irqNotices := rfl
@[simp] theorem State.popOnByte_advisories (s : State) : s.popOnByte.advisories = s.advisories := rfl

@[simp] theorem State.popIrq_timer (s : State) : s.popIrq.timer = s.timer := rfl
@[simp] theorem State.popIrq_link (s : State) : s.popIrq.link = s.link := rfl
@[simp] theorem State.popIrq_inputs (s : State) : s.popIrq.inputs = s.inputs := rfl
@[simp] theorem State.popIrq_onByteCalls (s : State) : s.popIrq.onByteCalls = s.onByteCalls := rfl
@[simp] theorem State.popIrq_irqCalls (s : State) : s.popIrq.irqCalls = s.irqCalls.tail := rfl
@[simp] theorem State.popIrq_inside (s : State) : s.popIrq.inside = s.inside := rfl
@[simp] theorem State.popIrq_sinkConnected (s : State) : s.popIrq.sinkConnected = s.sinkConnected := rfl
@[simp] theorem State.popIrq_result (s : State) : s.popIrq.result = s.result := rfl
@[simp] theorem State.popIrq_outputs (s : State) : s.popIrq.outputs = s.outputs := rfl
@[simp] theorem State.popIrq_sent (s : State) : s.popIrq.sent = s.sent := rfl
@[simp] theorem State.popIrq_irqNotices (s : State) : s.popIrq.irqNotices = s.irqNotices := rfl
@[simp] theorem State.popIrq_advisories (s : State) : s.popIrq.advisories = s.advisories := rfl

@[simp] theorem State.output_timer (s : State) (o : List Output) : (s.output o).timer = s.timer := rfl
@[simp] theorem State.output_link (s : State) (o : List Output) : (s.output o).link = s.link := rfl
@[simp] theorem State.output_inputs (s : State) (o : List Output) : (s.output o).inputs = s.inputs := rfl
@[simp] theorem State.output_onByteCalls (s : State) (o : List Output) : (s.output o).onByteCalls = s.onByteCalls := rfl
@[simp] theorem State.output_irqCalls (s : State) (o : List Output) : (s.output o).irqCalls = s.irqCalls := rfl
@[simp] theorem State.output_inside (s : State) (o : List Output) : (s.output o).inside = s.inside := rfl
@[simp] theorem State.output_sinkConnected (s : State) (o : List Output) : (s.output o).sinkConnected = s.sinkConnected := rfl
@[simp] theorem State.output_result (s : State) (o : List Output) : (s.output o).result = s.result := rfl
@[simp] theorem State.output_outputs (s : State) (o : List Output) : (s.output o).outputs = s.outputs ++ o := rfl

@[simp] theorem State.noteReturn_timer (s : State) : s.noteReturn.timer = s.timer := rfl
@[simp] theorem State.noteReturn_link (s : State) : s.noteReturn.link = s.link := rfl
@[simp] theorem State.noteReturn_inputs (s : State) : s.noteReturn.inputs = s.inputs := rfl
@[simp] theorem State.noteReturn_onByteCalls (s : State) : s.noteReturn.onByteCalls = s.onByteCalls := rfl
@[simp] theorem State.noteReturn_irqCalls (s : State) : s.noteReturn.irqCalls = s.irqCalls := rfl
@[simp] theorem State.noteReturn_inside (s : State) : s.noteReturn.inside = s.inside := rfl
@[simp] theorem State.noteReturn_sinkConnected (s : State) : s.noteReturn.sinkConnected = s.sinkConnected := rfl
@[simp] theorem State.noteReturn_result (s : State) : s.noteReturn.result = s.result := rfl
@[simp] theorem State.noteReturn_outputs (s : State) : s.noteReturn.outputs = s.outputs ++ s.result.toList.map .returned := rfl

/-- The line is a function of TIMER alone (R22). -/
@[simp] theorem State.irq_eq (s : State) : s.irq = s.timer.irq := rfl

/-- Recording nothing changes nothing. -/
@[simp] theorem State.output_nil (s : State) : s.output [] = s := by simp [State.output]

/-- Bytes given to `onByte` extend `sent` and nothing else. -/
@[simp] theorem State.output_bytes_sent (s : State) (bs : List Byte) : (s.output (bs.map .byte)).sent = s.sent ++ bs := by
  simp only [State.sent, State.output_outputs, List.filterMap_append, List.filterMap_map]
  congr 1
  exact List.filterMap_some

@[simp] theorem State.output_bytes_irqNotices (s : State) (bs : List Byte) : (s.output (bs.map .byte)).irqNotices = s.irqNotices := by
  simp [State.irqNotices]

@[simp] theorem State.output_bytes_advisories (s : State) (bs : List Byte) : (s.output (bs.map .byte)).advisories = s.advisories := by
  simp [State.advisories]

@[simp] theorem State.output_byte_sent (s : State) (b : Byte) : (s.output [.byte b]).sent = s.sent ++ [b] := by simp [State.sent]
@[simp] theorem State.output_byte_irqNotices (s : State) (b : Byte) : (s.output [.byte b]).irqNotices = s.irqNotices := by
  simp [State.irqNotices]
@[simp] theorem State.output_byte_advisories (s : State) (b : Byte) : (s.output [.byte b]).advisories = s.advisories := by
  simp [State.advisories]
@[simp] theorem State.output_irq_sent (s : State) (v : Bool) : (s.output [.irq v]).sent = s.sent := by simp [State.sent]
@[simp] theorem State.output_irq_irqNotices (s : State) (v : Bool) : (s.output [.irq v]).irqNotices = s.irqNotices ++ [v] := by
  simp [State.irqNotices]
@[simp] theorem State.output_irq_advisories (s : State) (v : Bool) : (s.output [.irq v]).advisories = s.advisories := by
  simp [State.advisories]
@[simp] theorem State.noteReturn_sent (s : State) : s.noteReturn.sent = s.sent := by
  cases h : s.result <;> simp [State.sent, h]
@[simp] theorem State.noteReturn_irqNotices (s : State) : s.noteReturn.irqNotices = s.irqNotices := by
  cases h : s.result <;> simp [State.irqNotices, h]
@[simp] theorem State.noteReturn_advisories (s : State) : s.noteReturn.advisories = s.advisories := by
  cases h : s.result <;> simp [State.advisories, h]

end Sys2Proof.Machine
end

