-- ==== Sys2Proof/Laws/Ops.lean ====
section
/-! SUPPORT. One lemma for each shared operation over the state that says everything it can answer: the guards, the callbacks, the end of
a TIMER operation, the emission, the end of a frame. -/

namespace Sys2Proof.Machine

theorem insideTimer_eq_false (s : State) : s.insideTimer = false ↔ Callback.irqChange ∉ s.inside := by
  simp [State.insideTimer]

theorem insideTimer_eq_true (s : State) : s.insideTimer = true ↔ Callback.irqChange ∈ s.inside := by
  simp [State.insideTimer]

theorem insideLink_eq_false (s : State) : s.insideLink = false ↔ Callback.onByte ∉ s.inside := by
  simp [State.insideLink]

theorem insideLink_eq_true (s : State) : s.insideLink = true ↔ Callback.onByte ∈ s.inside := by
  simp [State.insideLink]

@[simp] theorem andThen_next (s : State) (k : State → Host.Outcome State Fault Refusal) : andThen (.next s) k = k s := rfl

@[simp] theorem andThen_refused (r : Refusal) (k : State → Host.Outcome State Fault Refusal) : andThen (.refused r) k = .refused r := rfl

/-- Two operations in a row answer a next state exactly where both do. -/
theorem andThen_eq_next {o : Host.Outcome State Fault Refusal} {k : State → Host.Outcome State Fault Refusal} {t : State} :
    andThen o k = .next t ↔ ∃ u, o = .next u ∧ k u = .next t := by
  cases o <;> simp [andThen]

/-- What a callback can answer (R54): the consumer's calls run inside it, and the running callbacks are as before. -/
theorem insideCallback_eq_next {run : Caller} {c : Callback} {ps : List PortInput} {s t : State} :
    insideCallback run c ps s = .next t ↔ ∃ u, run ps (s.within (c :: s.inside)) = .next u ∧ t = u.within s.inside := by
  rw [insideCallback, andThen_eq_next]
  constructor <;> rintro ⟨u, a, b⟩
  · exact ⟨u, a, by cases b; rfl⟩
  · exact ⟨u, a, by rw [b]⟩

/-- A runner of calls that has nothing to do when nothing is called. -/
def Idle (run : Caller) : Prop := ∀ s, run [] s = .next s

/-- A consumer that calls nothing changes nothing. -/
theorem insideCallback_nil {run : Caller} (idle : Idle run) (c : Callback) (s : State) : insideCallback run c [] s = .next s := by
  rw [insideCallback, idle]; rfl

/-! ### TIMER operations -/

/-- TIMER's variables replaced, and a changed line notified to a consumer that calls nothing. -/
def State.notified (s : State) (t : Timer) : State :=
  if t.irq = s.timer.irq then s.withTimer t else (s.withTimer t).popIrq.output [.irq t.irq]

@[simp] theorem State.notified_timer (s : State) (t : Timer) : (s.notified t).timer = t := by unfold State.notified; split <;> rfl
@[simp] theorem State.notified_link (s : State) (t : Timer) : (s.notified t).link = s.link := by unfold State.notified; split <;> rfl
@[simp] theorem State.notified_inputs (s : State) (t : Timer) : (s.notified t).inputs = s.inputs := by
  unfold State.notified; split <;> rfl
@[simp] theorem State.notified_inside (s : State) (t : Timer) : (s.notified t).inside = s.inside := by
  unfold State.notified; split <;> rfl
@[simp] theorem State.notified_onByteCalls (s : State) (t : Timer) : (s.notified t).onByteCalls = s.onByteCalls := by
  unfold State.notified; split <;> rfl
@[simp] theorem State.notified_sinkConnected (s : State) (t : Timer) : (s.notified t).sinkConnected = s.sinkConnected := by
  unfold State.notified; split <;> rfl
@[simp] theorem State.notified_result (s : State) (t : Timer) : (s.notified t).result = s.result := by
  unfold State.notified; split <;> rfl
@[simp] theorem State.notified_sent (s : State) (t : Timer) : (s.notified t).sent = s.sent := by
  unfold State.notified; split <;> simp
@[simp] theorem State.notified_advisories (s : State) (t : Timer) : (s.notified t).advisories = s.advisories := by
  unfold State.notified; split <;> simp
/-- The notice of a changed line (log entry 25). -/
@[simp] theorem State.notified_irqNotices (s : State) (t : Timer) :
    (s.notified t).irqNotices = if t.irq = s.timer.irq then s.irqNotices else s.irqNotices ++ [t.irq] := by
  unfold State.notified; split <;> simp
/-- With the line as it was nothing is notified. -/
theorem State.notified_same {s : State} {t : Timer} (h : t.irq = s.timer.irq) : s.notified t = s.withTimer t := if_pos h

/-- What replacing TIMER's variables can answer: no notice, or one with the consumer's calls run inside it (R28, R54). -/
theorem setTimer_eq_next {run : Caller} {s t : State} {u : Timer} :
    setTimer run s u = .next t ↔
      (u.irq = s.timer.irq ∧ t = s.withTimer u) ∨
      (u.irq ≠ s.timer.irq ∧ ∃ v, run (s.irqCalls.headD [])
          (((s.withTimer u).popIrq.output [.irq u.irq]).within (.irqChange :: s.inside)) = .next v ∧ t = v.within s.inside) := by
  unfold setTimer notifyIrq
  split
  · case isTrue h => simp [h, eq_comm]
  · case isFalse h => rw [insideCallback_eq_next]; simp [h]

/-- With a consumer that calls nothing, or an unchanged line, replacing TIMER's variables always completes. -/
theorem setTimer_quiet {run : Caller} (idle : Idle run) {s : State} {u : Timer}
    (q : u.irq ≠ s.timer.irq → s.irqCalls.headD [] = []) : setTimer run s u = .next (s.notified u) := by
  unfold setTimer State.notified
  split
  · rfl
  · case isFalse h => rw [notifyIrq, State.withTimer_irqCalls, q h, insideCallback_nil idle]

/-- From inside TIMER's own notification a TIMER operation is refused (R54 case b). -/
theorem timerOpWith_reentrant {run : Caller} {s : State} (h : Callback.irqChange ∈ s.inside) (e : Except Refusal TimerEffect) :
    timerOpWith run s e = .refused .reentrantTimerCall := by
  simp [timerOpWith, (insideTimer_eq_true s).2 h]

/-- From outside it, an effect that is a refusal is the answer. -/
theorem timerOpWith_error {run : Caller} {s : State} (h : Callback.irqChange ∉ s.inside) (r : Refusal) :
    timerOpWith run s (.error r) = .refused r := by
  simp [timerOpWith, (insideTimer_eq_false s).2 h]

/-- From outside it, any other effect is TIMER's variables replaced and the outcome answered. -/
theorem timerOpWith_ok {run : Caller} {s : State} (h : Callback.irqChange ∉ s.inside) (e : TimerEffect) :
    timerOpWith run s (.ok e) =
      andThen (setTimer run (s.output (e.advisories.map .advisory)) e.timer) (fun t => .next (t.answer e.result)) := by
  simp [timerOpWith, (insideTimer_eq_false s).2 h]

/-- A TIMER operation whose notice, if any, goes to a consumer that calls nothing. -/
theorem timerOpWith_quiet {run : Caller} (idle : Idle run) {s : State} (h : Callback.irqChange ∉ s.inside) {e : TimerEffect}
    (q : e.timer.irq ≠ s.timer.irq → s.irqCalls.headD [] = []) (a : e.advisories = []) :
    timerOpWith run s (.ok e) = .next ((s.notified e.timer).answer e.result) := by
  rw [timerOpWith_ok h, a, List.map_nil, State.output_nil, setTimer_quiet idle q]; rfl

/-- Everything a TIMER operation can do when it answers a next state, guards included. -/
theorem timerOpWith_next {run : Caller} {s t : State} {x : Except Refusal TimerEffect} (h : timerOpWith run s x = .next t) :
    Callback.irqChange ∉ s.inside ∧ ∃ e u, x = .ok e ∧ setTimer run (s.output (e.advisories.map .advisory)) e.timer = .next u ∧
      t = u.answer e.result := by
  by_cases m : Callback.irqChange ∈ s.inside
  · rw [timerOpWith_reentrant m] at h; cases h
  · refine ⟨m, ?_⟩
    cases x with
    | error r => rw [timerOpWith_error m] at h; cases h
    | ok e =>
      rw [timerOpWith_ok m, andThen_eq_next] at h
      obtain ⟨u, a, b⟩ := h
      exact ⟨e, u, rfl, a, by cases b; rfl⟩

/-! ### LINK operations -/

/-- From outside `onByte` a LINK operation is what it says (R54). -/
theorem linkOp_free {s : State} (h : Callback.onByte ∉ s.inside) (k : Host.Outcome State Fault Refusal) : linkOp s k = k := by
  simp [linkOp, (insideLink_eq_false s).2 h]

/-- From inside it, a LINK operation is refused (R54 case b). -/
theorem linkOp_reentrant {s : State} (h : Callback.onByte ∈ s.inside) (k : Host.Outcome State Fault Refusal) :
    linkOp s k = .refused .reentrantLinkCall := by
  simp [linkOp, (insideLink_eq_true s).2 h]

/-- A LINK operation that answers a next state was not re-entrant. -/
theorem linkOp_next {s t : State} {k : Host.Outcome State Fault Refusal} (h : linkOp s k = .next t) :
    Callback.onByte ∉ s.inside ∧ k = .next t := by
  by_cases m : Callback.onByte ∈ s.inside
  · simp [linkOp_reentrant m] at h
  · exact ⟨m, by rwa [linkOp_free m] at h⟩

/-- The bytes of `out` emitted to a consumer that calls nothing. -/
def State.emitted (s : State) (out : List Byte) : State :=
  { s with outputs := s.outputs ++ out.map .byte, onByteCalls := s.onByteCalls.drop out.length }

@[simp] theorem State.emitted_timer (s : State) (o : List Byte) : (s.emitted o).timer = s.timer := rfl
@[simp] theorem State.emitted_link (s : State) (o : List Byte) : (s.emitted o).link = s.link := rfl
@[simp] theorem State.emitted_inputs (s : State) (o : List Byte) : (s.emitted o).inputs = s.inputs := rfl
@[simp] theorem State.emitted_irqCalls (s : State) (o : List Byte) : (s.emitted o).irqCalls = s.irqCalls := rfl
@[simp] theorem State.emitted_onByteCalls (s : State) (o : List Byte) :
    (s.emitted o).onByteCalls = s.onByteCalls.drop o.length := rfl
@[simp] theorem State.emitted_inside (s : State) (o : List Byte) : (s.emitted o).inside = s.inside := rfl
@[simp] theorem State.emitted_sinkConnected (s : State) (o : List Byte) : (s.emitted o).sinkConnected = s.sinkConnected := rfl
@[simp] theorem State.emitted_result (s : State) (o : List Byte) : (s.emitted o).result = s.result := rfl
@[simp] theorem State.emitted_sent (s : State) (o : List Byte) : (s.emitted o).sent = s.sent ++ o := State.output_bytes_sent s o
@[simp] theorem State.emitted_irqNotices (s : State) (o : List Byte) : (s.emitted o).irqNotices = s.irqNotices :=
  State.output_bytes_irqNotices s o
@[simp] theorem State.emitted_advisories (s : State) (o : List Byte) : (s.emitted o).advisories = s.advisories :=
  State.output_bytes_advisories s o

/-- Emission to a consumer that calls nothing always completes (R166). -/
theorem emitAll_quiet {run : Caller} (idle : Idle run) (out : List Byte) {s : State} (q : ∀ c ∈ s.onByteCalls, c = []) :
    emitAll run out s = .next (s.emitted out) := by
  induction out generalizing s with
  | nil => simp [emitAll, State.emitted]
  | cons b out ih =>
    have head : s.onByteCalls.headD [] = [] := by
      cases e : s.onByteCalls with
      | nil => rfl
      | cons c cs => exact q c (by simp [e])
    rw [emitAll, emitByte, head, insideCallback_nil idle, andThen_next, ih]
    · simp [State.emitted, State.output, State.popOnByte]
    · intro c hc; exact q c (List.mem_of_mem_tail hc)

/-- Everything one emission can do (R166, R54). -/
theorem emitByte_eq_next {run : Caller} {b : Byte} {s t : State} :
    emitByte run b s = .next t ↔
      ∃ u, run (s.onByteCalls.headD []) ((s.popOnByte.output [.byte b]).within (.onByte :: s.inside)) = .next u ∧
        t = u.within s.inside := insideCallback_eq_next

/-- A completed frame ends with its reply emitted and LINK empty, when a sink is connected whose consumer calls nothing (R166, R169,
R215). -/
theorem finishFrameWith_quiet {run : Caller} (idle : Idle run) {s : State} (h : s.sinkConnected = true)
    (q : ∀ c ∈ s.onByteCalls, c = []) (out : List Byte) :
    finishFrameWith run s out = .next (((s.emitted out).withLink { rxbuf := [], expected := none }).answer .done) := by
  simp [finishFrameWith, h, emitAll_quiet idle out q, Link.clear]

/-- Everything the end of a frame can do when it answers a next state, guards included. -/
theorem finishFrameWith_next {run : Caller} {s t : State} {out : List Byte} (h : finishFrameWith run s out = .next t) :
    s.sinkConnected = true ∧ ∃ u, emitAll run out s = .next u ∧
      t = (u.withLink { rxbuf := [], expected := none }).answer .done := by
  unfold finishFrameWith at h
  split at h
  · case isTrue c =>
    rw [andThen_eq_next] at h
    obtain ⟨u, a, b⟩ := h
    exact ⟨c, u, a, by cases b; rfl⟩
  · cases h

end Sys2Proof.Machine
end

