-- ==== Sys2Proof/Laws/Framing.lean ====
section
/-! SUPPORT. What the framing operations do, each said once: the append and latch, completion, the dispatch, the constant reply. -/

namespace Sys2Proof.Machine

/-- The command rows as a comparison with 0x20 (R73, R77). -/
theorem decodeCommand_eq (c : Byte) : decodeCommand c = if c = 0x20 then .frameScan else .frameEcho := by
  have h : c &&& 0xFF = c := by
    have : (0xFF : Byte) = BitVec.allOnes 8 := rfl
    rw [this, BitVec.and_allOnes]
  rw [decodeCommand, h]; rfl

/-- The scan reply (R171). -/
theorem scanReply_eq : scanReply = [0xBC, 0xCF, 0x20, 0x01, 0x00, 0x21, 0x62] := by decide

/-- Completion (R164). -/
theorem Link.complete_iff (l : Link) : l.complete = true ↔ l.expected = some l.rxbuf.length := by simp [Link.complete]

theorem Link.scanReady_iff (l : Link) : l.scanReady = true ↔ l.expected = some l.rxbuf.length ∧ l.command = 0x20 := by
  simp only [Link.scanReady, Bool.and_eq_true, Link.complete_iff, decodeCommand_eq]
  split <;> simp_all

theorem Link.echoReady_iff (l : Link) : l.echoReady = true ↔ l.expected = some l.rxbuf.length ∧ l.command ≠ 0x20 := by
  simp only [Link.echoReady, Bool.and_eq_true, Link.complete_iff, decodeCommand_eq]
  split <;> simp_all

/-- The command byte is 0x20 exactly where the buffer's third byte is there and is 0x20 (R165). -/
theorem Link.command_eq_scan (l : Link) : l.command = 0x20 ↔ l.rxbuf[2]? = some 0x20 := by
  simp only [Link.command, commandIndex, List.getD_eq_getElem?_getD]
  cases l.rxbuf[2]? <;> simp

/-- The append with the latch on the 4th byte (R162). -/
theorem Link.accept_fourth {l : Link} (h : l.rxbuf.length = 3) (b : Byte) :
    l.accept b = { rxbuf := l.rxbuf ++ [b], expected := some (b.toNat + 6) } := by
  simp [Link.accept, h, lengthIndex, frameOverhead, List.getD_eq_getElem?_getD]

/-- The append of any other byte (R161). -/
theorem Link.accept_other {l : Link} (h : l.rxbuf.length ≠ 3) (b : Byte) :
    l.accept b = { rxbuf := l.rxbuf ++ [b], expected := l.expected } := by
  simp [Link.accept, h]

/-- FRAME_SCAN on its operand (R167). -/
theorem frameScanWith_ready {run : Caller} {s : State} (h : s.link.scanReady = true) :
    frameScanWith run s = finishFrameWith run s scanReply := if_pos h

/-- FRAME_ECHO on its operand (R168). -/
theorem frameEchoWith_ready {run : Caller} {s : State} (h : s.link.echoReady = true) :
    frameEchoWith run s = finishFrameWith run s s.link.rxbuf := if_pos h

/-- INGEST in one line (R161, R164, R165): after the append, a complete frame ends with its reply, and else nothing is emitted. -/
theorem ingestWith_eq (run : Caller) (b : Byte) (s : State) :
    ingestWith run b s =
      linkOp s
        (if (s.link.accept b).complete then finishFrameWith run (s.withLink (s.link.accept b)) (replyTo (s.link.accept b).rxbuf)
         else .next ((s.withLink (s.link.accept b)).answer .done)) := by
  unfold ingestWith
  congr 1
  cases c : (s.link.accept b).complete with
  | false => simp [Link.scanReady, Link.echoReady, c]
  | true =>
    have e := (Link.complete_iff _).1 c
    by_cases k : (s.link.accept b).command = 0x20
    · have r := (Link.scanReady_iff _).2 ⟨e, k⟩
      have k' : (s.link.accept b).rxbuf.getD commandIndex 0 = 0x20 := k
      refine (if_pos r).trans ?_
      rw [frameScanWith_ready r, if_pos rfl, replyTo, decodeCommand_eq, if_pos k', if_pos rfl]
    · have r := (Link.echoReady_iff _).2 ⟨e, k⟩
      have n : (s.link.accept b).scanReady ≠ true := fun h => k ((Link.scanReady_iff _).1 h).2
      have k' : (s.link.accept b).rxbuf.getD commandIndex 0 ≠ 0x20 := k
      refine (if_neg n).trans ((if_pos r).trans ?_)
      rw [frameEchoWith_ready r, if_pos rfl, replyTo, decodeCommand_eq, if_neg k', if_neg (by simp)]; rfl

/-- INGEST of a byte that completes nothing (R161, R163). -/
theorem ingestWith_open {run : Caller} {s : State} {b : Byte} (h : Callback.onByte ∉ s.inside)
    (c : (s.link.accept b).expected ≠ some (s.link.accept b).rxbuf.length) :
    ingestWith run b s = .next ((s.withLink (s.link.accept b)).answer .done) := by
  rw [ingestWith_eq, linkOp_free h, if_neg (fun e => c ((Link.complete_iff _).1 e))]

/-- INGEST of the byte that completes a frame (R161, R164, R166, R169). -/
theorem ingestWith_complete {run : Caller} {s : State} {b : Byte} (h : Callback.onByte ∉ s.inside)
    (c : (s.link.accept b).expected = some (s.link.accept b).rxbuf.length) :
    ingestWith run b s = finishFrameWith run (s.withLink (s.link.accept b)) (replyTo (s.link.accept b).rxbuf) := by
  rw [ingestWith_eq, linkOp_free h, if_pos ((Link.complete_iff _).2 c)]

/-- Everything INGEST can do when it answers a next state, guards included. -/
theorem ingestWith_next {run : Caller} {b : Byte} {s t : State} (h : ingestWith run b s = .next t) :
    Callback.onByte ∉ s.inside ∧
    (((s.link.accept b).expected ≠ some (s.link.accept b).rxbuf.length ∧ t = (s.withLink (s.link.accept b)).answer .done) ∨
     ((s.link.accept b).expected = some (s.link.accept b).rxbuf.length ∧ s.sinkConnected = true ∧
      ∃ u, emitAll run (replyTo (s.link.accept b).rxbuf) (s.withLink (s.link.accept b)) = .next u ∧
        t = (u.withLink { rxbuf := [], expected := none }).answer .done)) := by
  rw [ingestWith_eq] at h
  obtain ⟨free, h⟩ := linkOp_next h
  refine ⟨free, ?_⟩
  split at h
  · case isTrue c => exact .inr ⟨(Link.complete_iff _).1 c, finishFrameWith_next h⟩
  · case isFalse c => exact .inl ⟨fun e => c ((Link.complete_iff _).2 e), by cases h; rfl⟩

/-- Everything FRAME_SCAN can do when it answers a next state (R167). -/
theorem frameScanWith_next {run : Caller} {s t : State} (h : frameScanWith run s = .next t) :
    s.link.scanReady = true ∧ s.sinkConnected = true ∧
      ∃ u, emitAll run scanReply s = .next u ∧ t = (u.withLink { rxbuf := [], expected := none }).answer .done := by
  unfold frameScanWith at h
  split at h
  · case isTrue c => exact ⟨c, finishFrameWith_next h⟩
  · cases h

/-- Everything FRAME_ECHO can do when it answers a next state (R168). -/
theorem frameEchoWith_next {run : Caller} {s t : State} (h : frameEchoWith run s = .next t) :
    s.link.echoReady = true ∧ s.sinkConnected = true ∧
      ∃ u, emitAll run s.link.rxbuf s = .next u ∧ t = (u.withLink { rxbuf := [], expected := none }).answer .done := by
  unfold frameEchoWith at h
  split at h
  · case isTrue c => exact ⟨c, finishFrameWith_next h⟩
  · cases h

/-- RESET_LINK from outside `onByte` (R211). -/
theorem resetLinkOp_free {s : State} (h : Callback.onByte ∉ s.inside) :
    resetLinkOp s = .next ((s.withLink { rxbuf := [], expected := none }).answer .done) := linkOp_free h _

/-- Everything RESET_LINK can do when it answers a next state (R211). -/
theorem resetLinkOp_next {s t : State} (h : resetLinkOp s = .next t) :
    Callback.onByte ∉ s.inside ∧ t = (s.withLink { rxbuf := [], expected := none }).answer .done := by
  obtain ⟨free, k⟩ := linkOp_next h
  exact ⟨free, by cases k; rfl⟩

/-- The reply to a frame whose command byte is 0x20 (R167, R171). -/
theorem replyTo_scan {f : List Byte} (h : f[2]? = some 0x20) : replyTo f = [0xBC, 0xCF, 0x20, 0x01, 0x00, 0x21, 0x62] := by
  have k : f.getD commandIndex 0 = 0x20 := (Link.command_eq_scan ⟨f, none⟩).2 h
  rw [replyTo, decodeCommand_eq, if_pos k, scanReply_eq]; rfl

/-- The reply to any other frame (R168). -/
theorem replyTo_echo {f : List Byte} (h : f[2]? ≠ some 0x20) : replyTo f = f := by
  have k : f.getD commandIndex 0 ≠ 0x20 := fun e => h ((Link.command_eq_scan ⟨f, none⟩).1 e)
  rw [replyTo, decodeCommand_eq, if_neg k]; rfl

/-- The empty LINK is as between operations (R27). -/
theorem Link.inv_empty : Link.Inv { rxbuf := [], expected := none } := ⟨by simp, by simp⟩

/-- An append that completes nothing keeps R27. -/
theorem Link.inv_accept {l : Link} (h : l.Inv) (b : Byte) (c : (l.accept b).expected ≠ some (l.accept b).rxbuf.length) :
    (l.accept b).Inv := by
  obtain ⟨short, long⟩ := h
  by_cases e : l.rxbuf.length = 3
  · rw [Link.accept_fourth e]
    refine ⟨by simp [e], fun _ => ⟨b, ?_, rfl, by simp [e]⟩⟩
    rw [List.getElem?_append_right (by omega)]; simp [e]
  · rw [Link.accept_other e] at c ⊢
    refine ⟨?_, fun g => ?_⟩
    · simp only [List.length_append, List.length_singleton]; rw [← short]; omega
    · simp only [List.length_append, List.length_singleton] at g c
      obtain ⟨x, hx, ex, lx⟩ := long (by omega)
      refine ⟨x, by rw [List.getElem?_append_left (by omega)]; exact hx, ex, ?_⟩
      simp only [ex, ne_eq, Option.some.injEq] at c
      simp only [List.length_append, List.length_singleton]; omega

end Sys2Proof.Machine
end

