-- ==== Sys2Proof/Laws/Reentry.lean ====
section
/-! SUPPORT. What operations keep whatever the consumers of their callbacks call (R54), said once and for every depth of calls. -/

namespace Sys2Proof.Machine

theorem noCalls_idle : Idle noCalls := fun _ => rfl

theorem runCalls_idle (inner : Caller) : Idle (runCalls inner) := fun _ => rfl

theorem calls_idle : Idle calls := runCalls_idle noCalls

/-- What every operation keeps, its consumers' calls included: the ports, the earlier outputs, the invariants; and of the unit whose own
callback is running, everything (R54 case b). -/
structure Kept (s t : State) : Prop where
  inputs : t.inputs = s.inputs
  inside : t.inside = s.inside
  sink : t.sinkConnected = s.sinkConnected
  onByteCalls : t.onByteCalls <:+ s.onByteCalls
  irqCalls : t.irqCalls <:+ s.irqCalls
  outputs : s.outputs <+: t.outputs
  advisories : t.advisories = s.advisories
  timerInv : s.timer.Inv → t.timer.Inv
  linkInv : s.link.Inv → t.link.Inv
  timer : Callback.irqChange ∈ s.inside → t.timer = s.timer
  irqNotices : Callback.irqChange ∈ s.inside → t.irqNotices = s.irqNotices
  link : Callback.onByte ∈ s.inside → t.link = s.link
  sent : Callback.onByte ∈ s.inside → t.sent = s.sent

theorem Kept.rfl' (s : State) : Kept s s :=
  ⟨rfl, rfl, rfl, List.suffix_rfl, List.suffix_rfl, List.prefix_rfl, rfl, id, id, fun _ => rfl, fun _ => rfl, fun _ => rfl, fun _ => rfl⟩

theorem Kept.trans {s t u : State} (a : Kept s t) (b : Kept t u) : Kept s u where
  inputs := b.inputs.trans a.inputs
  inside := b.inside.trans a.inside
  sink := b.sink.trans a.sink
  onByteCalls := b.onByteCalls.trans a.onByteCalls
  irqCalls := b.irqCalls.trans a.irqCalls
  outputs := a.outputs.trans b.outputs
  advisories := b.advisories.trans a.advisories
  timerInv h := b.timerInv (a.timerInv h)
  linkInv h := b.linkInv (a.linkInv h)
  timer h := (b.timer (a.inside ▸ h)).trans (a.timer h)
  irqNotices h := (b.irqNotices (a.inside ▸ h)).trans (a.irqNotices h)
  link h := (b.link (a.inside ▸ h)).trans (a.link h)
  sent h := (b.sent (a.inside ▸ h)).trans (a.sent h)

/-- A runner of calls that keeps what every operation keeps. -/
def Keeps (run : Caller) : Prop := ∀ ps s t, run ps s = .next t → Kept s t

theorem noCalls_keeps : Keeps noCalls := by
  intro ps s t h
  cases ps with
  | nil => cases h; exact .rfl' s
  | cons p ps => simp only [noCalls] at h; split at h <;> cases h

theorem Kept.answer {s t : State} (h : Kept s t) (r : Result) : Kept s (t.answer r) :=
  ⟨h.inputs, h.inside, h.sink, h.onByteCalls, h.irqCalls, h.outputs, h.advisories, h.timerInv, h.linkInv, h.timer, h.irqNotices,
    h.link, h.sent⟩

theorem Kept.noteReturn {s t : State} (h : Kept s t) : Kept s t.noteReturn :=
  ⟨h.inputs, h.inside, h.sink, h.onByteCalls, h.irqCalls, h.outputs.trans (List.prefix_append _ _),
    (State.noteReturn_advisories t).trans h.advisories, h.timerInv, h.linkInv, h.timer,
    fun m => (State.noteReturn_irqNotices t).trans (h.irqNotices m), h.link, fun m => (State.noteReturn_sent t).trans (h.sent m)⟩

/-- What a change of the line keeps, the consumer's calls included: everything of LINK but what those calls do to it (R28, R54). -/
theorem setTimer_kept {run : Caller} (k : Keeps run) {s t : State} {u : Timer} (h : setTimer run s u = .next t)
    (free : Callback.irqChange ∉ s.inside) (iv : s.timer.Inv → u.Inv) : Kept s t ∧ t.timer = u := by
  obtain ⟨_, rfl⟩ | ⟨_, v, hv, rfl⟩ := setTimer_eq_next.1 h
  · exact ⟨⟨rfl, rfl, rfl, List.suffix_rfl, List.suffix_rfl, List.prefix_rfl, rfl, iv, id, fun m => absurd m free,
      fun m => absurd m free, fun _ => rfl, fun _ => rfl⟩, rfl⟩
  · have m := k _ _ _ hv
    have ht : v.timer = u := m.timer (List.mem_cons_self ..)
    refine ⟨⟨m.inputs, rfl, m.sink, m.onByteCalls, m.irqCalls.trans (List.tail_suffix _), (List.prefix_append _ _).trans m.outputs, ?_,
      fun i => ?_, m.linkInv, fun c => absurd c free, fun c => absurd c free, fun c => m.link (List.mem_cons_of_mem _ c), fun c => ?_⟩, ht⟩
    · exact m.advisories.trans (State.output_irq_advisories _ _)
    · exact ht ▸ iv i
    · exact (m.sent (List.mem_cons_of_mem _ c)).trans (State.output_irq_sent _ _)

/-- A change of the line is notified once, whatever the consumer calls: the calls cannot reach TIMER (R52, R54, R185). -/
theorem setTimer_irqNotices {run : Caller} (k : Keeps run) {s t : State} {u : Timer} (h : setTimer run s u = .next t) :
    t.irqNotices = s.irqNotices ++ (if u.irq = s.timer.irq then [] else [u.irq]) := by
  obtain ⟨e, rfl⟩ | ⟨e, v, hv, rfl⟩ := setTimer_eq_next.1 h
  · rw [if_pos e]; exact (List.append_nil _).symm
  · rw [if_neg e]
    exact ((k _ _ _ hv).irqNotices (List.mem_cons_self ..)).trans (State.output_irq_irqNotices _ _)

/-- What a TIMER operation that signals nothing keeps, its variables and its notice, whatever its consumer calls (R54). -/
theorem timerOpWith_kept {run : Caller} (k : Keeps run) {s t : State} {x : Except Refusal TimerEffect}
    (h : timerOpWith run s x = .next t) (iv : ∀ e, x = .ok e → e.advisories = [] ∧ (s.timer.Inv → e.timer.Inv)) :
    Kept s t ∧ ∃ e, x = .ok e ∧ t.timer = e.timer ∧ t.result = some e.result ∧
      t.irqNotices = s.irqNotices ++ (if e.timer.irq = s.timer.irq then [] else [e.timer.irq]) := by
  obtain ⟨free, e, u, rfl, hu, rfl⟩ := timerOpWith_next h
  obtain ⟨a, i⟩ := iv e rfl
  rw [a, List.map_nil, State.output_nil] at hu
  obtain ⟨kept, ht⟩ := setTimer_kept k hu free i
  exact ⟨kept.answer _, e, rfl, ht, rfl, (State.answer_irqNotices u _).trans (setTimer_irqNotices k hu)⟩

/-- What one emission keeps, its consumer's calls included (R54). -/
theorem emitByte_kept {run : Caller} (k : Keeps run) {b : Byte} {s t : State} (h : emitByte run b s = .next t)
    (free : Callback.onByte ∉ s.inside) : Kept s t ∧ t.link = s.link ∧ t.sent = s.sent ++ [b] := by
  obtain ⟨v, hv, rfl⟩ := emitByte_eq_next.1 h
  have m := k _ _ _ hv
  have hs : v.sent = s.sent ++ [b] := (m.sent (List.mem_cons_self ..)).trans (State.output_byte_sent _ _)
  refine ⟨⟨m.inputs, rfl, m.sink, m.onByteCalls.trans (List.tail_suffix _), m.irqCalls, (List.prefix_append _ _).trans m.outputs,
    m.advisories.trans (State.output_byte_advisories _ _), m.timerInv, m.linkInv, fun c => m.timer (List.mem_cons_of_mem _ c),
    fun c => (m.irqNotices (List.mem_cons_of_mem _ c)).trans (State.output_byte_irqNotices _ _), fun c => absurd c free,
    fun c => absurd c free⟩, m.link (List.mem_cons_self ..), hs⟩

/-- What a whole emission keeps, its consumer's calls included: LINK is as it was, and `sent` is longer by the reply (R166, R54). -/
theorem emitAll_kept {run : Caller} (k : Keeps run) {out : List Byte} {s t : State} (h : emitAll run out s = .next t)
    (free : Callback.onByte ∉ s.inside) : Kept s t ∧ t.link = s.link ∧ t.sent = s.sent ++ out := by
  induction out generalizing s with
  | nil => cases h; exact ⟨.rfl' _, rfl, (List.append_nil _).symm⟩
  | cons b out ih =>
    obtain ⟨u, hu, hr⟩ := andThen_eq_next.1 h
    obtain ⟨ku, lu, su⟩ := emitByte_kept k hu free
    obtain ⟨kt, lt, st⟩ := ih hr (ku.inside.symm ▸ free)
    exact ⟨ku.trans kt, lt.trans lu, by rw [st, su, List.append_assoc]; rfl⟩

/-- LINK's variables replaced from outside `onByte` by ones that keep R27. -/
theorem Kept.withLink {s t : State} (h : Kept s t) (free : Callback.onByte ∉ s.inside) {l : Link} (iv : s.link.Inv → l.Inv) :
    Kept s (t.withLink l) :=
  ⟨h.inputs, h.inside, h.sink, h.onByteCalls, h.irqCalls, h.outputs, h.advisories, h.timerInv, iv, h.timer, h.irqNotices,
    fun m => absurd m free, fun m => absurd m free⟩

/-- The end of a frame from a state whose own frame it is (R166, R169). -/
theorem finish_kept {run : Caller} (k : Keeps run) {out : List Byte} {s u : State} {l : Link}
    (h : emitAll run out (s.withLink l) = .next u) (free : Callback.onByte ∉ s.inside) :
    Kept s ((u.withLink { rxbuf := [], expected := none }).answer .done) := by
  obtain ⟨m, _, _⟩ := emitAll_kept k h free
  exact ⟨m.inputs, m.inside, m.sink, m.onByteCalls, m.irqCalls, m.outputs, m.advisories, m.timerInv, fun _ => Link.inv_empty, m.timer,
    m.irqNotices, fun c => absurd c free, fun c => absurd c free⟩

/-- What every operation keeps of the ports, from inside any callback: no more than the record grows and the consumers' calls are used
up. -/
structure PortsKept (s t : State) : Prop where
  inputs : t.inputs = s.inputs
  inside : t.inside = s.inside
  sink : t.sinkConnected = s.sinkConnected
  onByteCalls : t.onByteCalls <:+ s.onByteCalls
  irqCalls : t.irqCalls <:+ s.irqCalls
  outputs : s.outputs <+: t.outputs
  advisories : t.advisories = s.advisories

theorem Kept.ports {s t : State} (h : Kept s t) : PortsKept s t :=
  ⟨h.inputs, h.inside, h.sink, h.onByteCalls, h.irqCalls, h.outputs, h.advisories⟩

/-- What a whole emission keeps of the ports, its consumer's calls included. -/
theorem emitAll_ports {run : Caller} (k : Keeps run) {out : List Byte} {s t : State} (h : emitAll run out s = .next t) :
    PortsKept s t := by
  induction out generalizing s with
  | nil => cases h; exact (Kept.rfl' _).ports
  | cons b out ih =>
    obtain ⟨u, hu, hr⟩ := andThen_eq_next.1 h
    obtain ⟨v, hv, rfl⟩ := emitByte_eq_next.1 hu
    have m := k _ _ _ hv
    have r := ih hr
    exact ⟨r.inputs.trans m.inputs, r.inside, r.sink.trans m.sink, r.onByteCalls.trans (m.onByteCalls.trans (List.tail_suffix _)),
      r.irqCalls.trans m.irqCalls, (List.prefix_append _ _).trans (m.outputs.trans r.outputs),
      r.advisories.trans (m.advisories.trans (State.output_byte_advisories _ _))⟩

/-- FRAME_SCAN and FRAME_ECHO are no inputs, so that a consumer cannot call them (R76). -/
theorem decode_port_ne_handler {p : PortInput} {i : Instr} (h : decode (.port p) = .ok i) : i ≠ .frameScan ∧ i ≠ .frameEcho := by
  have reg : ∀ (r : Reg) (w : Word), (readInstr r ≠ .frameScan ∧ readInstr r ≠ .frameEcho) ∧
      (writeInstr w r ≠ .frameScan ∧ writeInstr w r ≠ .frameEcho) := by
    intro r w; cases r <;> simp [readInstr, writeInstr]
  cases p with
  | busRead n off =>
    simp only [decode] at h; split at h
    · cases h; unfold decodeRead; split
      · exact (reg _ 0).1
      · simp
    · cases h
  | busWrite n off w =>
    simp only [decode] at h; split at h
    · cases h; unfold decodeWrite; split
      · exact (reg _ w).2
      · simp
    · cases h
  | tickSignal => cases h; simp
  | timerResetSignal => cases h; simp
  | byteIn b => cases h; simp
  | linkResetSignal => cases h; simp

/-- A call into the unit whose callback is running is refused (R54 case b). -/
theorem callOne_reentrant {run : Caller} {i : Instr} {s : State}
    (h : (unitOf i = .timer ∧ Callback.irqChange ∈ s.inside) ∨
      (unitOf i = .link ∧ i ≠ .frameScan ∧ i ≠ .frameEcho ∧ Callback.onByte ∈ s.inside)) :
    callOne run i s = .refused (reentrantRefusal (unitOf i)) := by
  rcases h with ⟨u, m⟩ | ⟨u, a, b, m⟩
  · cases i <;> simp only [unitOf, reduceCtorEq] at u <;>
      simp only [callOne, timerOpWith_reentrant m, unitOf, reentrantRefusal]
  · cases i <;> simp only [unitOf, reduceCtorEq] at u
    case ingest b => exact linkOp_reentrant m _
    case resetLink => exact linkOp_reentrant m _
    case frameScan => exact absurd rfl a
    case frameEcho => exact absurd rfl b

/-- While a callback of each unit is running, every call is refused, whatever would run the calls inside it (R54 case b). -/
theorem runCalls_insideBoth (inner : Caller) (ps : List PortInput) {s : State} (t : Callback.irqChange ∈ s.inside)
    (l : Callback.onByte ∈ s.inside) : runCalls inner ps s = noCalls ps s := by
  cases ps with
  | nil => rfl
  | cons p ps =>
    simp only [runCalls, noCalls]
    split
    · rfl
    · case h_2 i e =>
      have n := decode_port_ne_handler e
      rw [callOne_reentrant, andThen_refused]
      cases u : unitOf i with
      | timer => exact .inl ⟨rfl, t⟩
      | link => exact .inr ⟨rfl, n.1, n.2, l⟩

end Sys2Proof.Machine
end

