-- ==== Sys2Proof/Laws/Exec.lean ====
section
/-! SUPPORT. What `exec` can do to each unit, said once for all operations and whatever the consumers call, and how sequences of
operations run. -/

namespace Sys2Proof.Machine

/-- An operation from outside is the operation with its consumers' calls run by `calls` (R54). -/
theorem exec_eq_callOne (i : Instr) (s : State) : exec i s = callOne calls i s := by cases i <;> rfl

/-- A TIMER operation whose notice, if any, goes to a consumer that calls nothing. -/
theorem timerOp_quiet {s : State} (h : Callback.irqChange ∉ s.inside) {e : TimerEffect}
    (q : e.timer.irq ≠ s.timer.irq → s.irqCalls.headD [] = []) (a : e.advisories = []) :
    timerOp s (.ok e) = .next ((s.notified e.timer).answer e.result) := timerOpWith_quiet calls_idle h q a

/-- A TIMER operation that leaves the line as it was notifies nobody. -/
theorem timerOp_same {s : State} (h : Callback.irqChange ∉ s.inside) {e : TimerEffect} (q : e.timer.irq = s.timer.irq)
    (a : e.advisories = []) : timerOp s (.ok e) = .next ((s.withTimer e.timer).answer e.result) := by
  rw [timerOp_quiet h (fun n => absurd q n) a, State.notified_same q]

/-- TICK that counts (R141, R152). -/
theorem exec_tick_some {s : State} {u : Timer} (h : Callback.irqChange ∉ s.inside) (q : u.irq ≠ s.timer.irq → s.irqQuiet)
    (e : s.timer.tick = some u) : exec .tick s = .next ((s.notified u).answer .done) := by
  show timerOp s (effectTick s.timer) = _
  rw [effectTick, e]
  exact timerOp_quiet h q rfl

/-- TICK that is refused (R142). -/
theorem exec_tick_none {s : State} (h : Callback.irqChange ∉ s.inside) (e : s.timer.tick = none) :
    exec .tick s = .refused .tickOutsideDomain := by
  show timerOp s (effectTick s.timer) = _
  rw [effectTick, e]
  exact timerOpWith_error h _

/-- TIMER's variables after an operation that completes. -/
def timerAfter (t : Timer) : Instr → Timer
  | .rdControl1 => t
  | .wrControl1 w => t.writeControl1 w
  | .rdDier => t
  | .wrDier w => t.writeDier w
  | .rdStatus => t
  | .wrStatus w => t.writeStatus w
  | .rdEventgen => t
  | .wrEventgen w => (t.writeEventgen w).1
  | .rdCounter => t
  | .wrCounter w => t.writeCounter w
  | .rdPrescaler => t
  | .wrPrescaler w => t.writePrescaler w
  | .rdAutoreload => t
  | .wrAutoreload w => t.writeAutoreload w
  | .rdUnmapped _ => t
  | .wrUnmapped _ _ => t
  | .tick => t.tick.getD t
  | .resetTimer => Timer.powerOn
  | .ingest _ => t
  | .frameScan => t
  | .frameEcho => t
  | .resetLink => t

/-- LINK's variables after an operation that completes. -/
def linkAfter (l : Link) : Instr → Link
  | .rdControl1 => l
  | .wrControl1 _ => l
  | .rdDier => l
  | .wrDier _ => l
  | .rdStatus => l
  | .wrStatus _ => l
  | .rdEventgen => l
  | .wrEventgen _ => l
  | .rdCounter => l
  | .wrCounter _ => l
  | .rdPrescaler => l
  | .wrPrescaler _ => l
  | .rdAutoreload => l
  | .wrAutoreload _ => l
  | .rdUnmapped _ => l
  | .wrUnmapped _ _ => l
  | .tick => l
  | .resetTimer => l
  | .ingest b => if (l.accept b).complete then { rxbuf := [], expected := none } else l.accept b
  | .frameScan => { rxbuf := [], expected := none }
  | .frameEcho => { rxbuf := [], expected := none }
  | .resetLink => { rxbuf := [], expected := none }

/-- The outcome of a TIMER operation that completes, for its caller. -/
def timerResult (t : Timer) : Instr → Result
  | .rdControl1 => .word t.readControl1
  | .wrControl1 _ => .done
  | .rdDier => .word t.readDier
  | .wrDier _ => .done
  | .rdStatus => .word t.readStatus
  | .wrStatus _ => .done
  | .rdEventgen => .word t.readEventgen
  | .wrEventgen _ => .done
  | .rdCounter => .word t.readCounter
  | .wrCounter _ => .done
  | .rdPrescaler => .word t.readPrescaler
  | .wrPrescaler _ => .done
  | .rdAutoreload => .word t.readAutoreload
  | .wrAutoreload _ => .done
  | .rdUnmapped off => .unmappedAccess off
  | .wrUnmapped off _ => .unmappedAccess off
  | .tick => .done
  | .resetTimer => .done
  | .ingest _ => .done
  | .frameScan => .done
  | .frameEcho => .done
  | .resetLink => .done

/-- What TIMER operation `i` does, for all of them but a refused tick: `timerAfter`, no advisory, `timerResult`. -/
theorem exec_eq_timerOp {i : Instr} {s : State} (u : unitOf i = .timer) (n : i = .tick → s.timer.tick ≠ none) :
    exec i s = timerOp s (.ok { timer := timerAfter s.timer i, advisories := [], result := timerResult s.timer i }) := by
  cases i <;> simp only [unitOf, reduceCtorEq] at u
  case wrEventgen w =>
    simp only [exec, execWrEventgen, effectWrEventgen, timerAfter, timerResult, Timer.writeEventgen_eq]
  case tick =>
    cases e : s.timer.tick with
    | none => exact absurd e (n rfl)
    | some v => simp only [exec, execTick, effectTick, e, timerAfter, timerResult, Option.getD_some]; rfl
  all_goals rfl

/-- A TIMER operation, but for a refused tick, whose notice, if any, goes to a consumer that calls nothing. -/
theorem exec_timer_quiet {i : Instr} {s : State} (u : unitOf i = .timer) (n : i = .tick → s.timer.tick ≠ none)
    (h : Callback.irqChange ∉ s.inside) (q : (timerAfter s.timer i).irq ≠ s.timer.irq → s.irqQuiet) :
    exec i s = .next ((s.notified (timerAfter s.timer i)).answer (timerResult s.timer i)) := by
  rw [exec_eq_timerOp u n]; exact timerOp_quiet h q rfl

/-- A TIMER operation, but for a refused tick, that leaves the line as it was. -/
theorem exec_timer_same {i : Instr} {s : State} (u : unitOf i = .timer) (n : i = .tick → s.timer.tick ≠ none)
    (h : Callback.irqChange ∉ s.inside) (q : (timerAfter s.timer i).irq = s.timer.irq) :
    exec i s = .next ((s.withTimer (timerAfter s.timer i)).answer (timerResult s.timer i)) := by
  rw [exec_timer_quiet u n h (fun c => absurd q c), State.notified_same q]

/-- No operation takes TIMER's phase to its divider (R12, R13). -/
theorem timerAfter_inv {t : Timer} (h : t.Inv) (i : Instr) : (timerAfter t i).Inv := by
  cases i
  case wrStatus w => show Timer.Inv (t.writeStatus w); rw [Timer.writeStatus_eq]; exact h
  case wrEventgen w =>
    show Timer.Inv (t.writeEventgen w).1
    rw [Timer.writeEventgen_eq]; split
    · exact ⟨h.1, h.2.1, h.1⟩
    · exact h
  case wrCounter => exact ⟨h.1, h.2.1, h.1⟩
  case wrPrescaler w => exact ⟨Nat.le_add_left 1 _, w.isLt, Nat.succ_pos _⟩
  case tick =>
    show Timer.Inv (t.tick.getD t)
    cases e : t.tick with
    | none => exact h
    | some u => exact Timer.tick_inv h e
  case resetTimer => exact ⟨(by decide : 1 ≤ 1), (by decide : 1 ≤ 2 ^ 32), (by decide : 0 < 1)⟩
  all_goals exact h

/-- Every TIMER operation is an effect that signals nothing and whose variables are `timerAfter`, or the refusal of a tick. -/
theorem callOne_eq_timerOpWith (run : Caller) {i : Instr} (s : State) (u : unitOf i = .timer) :
    ∃ x, callOne run i s = timerOpWith run s x ∧ ∀ e, x = .ok e → e.advisories = [] ∧ e.timer = timerAfter s.timer i := by
  cases i <;> simp only [unitOf, reduceCtorEq] at u <;> simp only [callOne]
  case wrEventgen w => exact ⟨_, rfl, fun e xe => by cases xe; exact ⟨by rw [Timer.writeEventgen_eq], rfl⟩⟩
  case tick =>
    refine ⟨_, rfl, fun e xe => ?_⟩
    unfold effectTick at xe
    split at xe
    · case h_1 v hv => cases xe; exact ⟨rfl, by show v = s.timer.tick.getD s.timer; rw [hv]; rfl⟩
    · cases xe
  all_goals exact ⟨_, rfl, fun e xe => by cases xe; exact ⟨rfl, rfl⟩⟩

/-- Everything a TIMER operation can do, whatever its consumer calls: what all operations keep, `timerAfter`, and one notice exactly for
a change of the line (R52, R54, R185). -/
theorem callOne_timer {run : Caller} (k : Keeps run) {i : Instr} {s t : State} (u : unitOf i = .timer)
    (h : callOne run i s = .next t) :
    Kept s t ∧ t.timer = timerAfter s.timer i ∧ t.result.isSome = true ∧
      t.irqNotices = s.irqNotices ++ (if t.timer.irq = s.timer.irq then [] else [t.timer.irq]) := by
  obtain ⟨x, e, hx⟩ := callOne_eq_timerOpWith run s u
  rw [e] at h
  obtain ⟨kept, e, xe, ht, hr, hn⟩ := timerOpWith_kept k h (fun e xe => ⟨(hx e xe).1, fun iv => (hx e xe).2 ▸ timerAfter_inv iv i⟩)
  exact ⟨kept, ht.trans (hx e xe).2, by rw [hr]; rfl, ht ▸ hn⟩

/-- What a LINK operation does to LINK, and what all operations keep, whatever its consumer calls (R54). -/
theorem callOne_link {run : Caller} (k : Keeps run) {i : Instr} {s t : State} (u : unitOf i = .link)
    (free : Callback.onByte ∉ s.inside) (h : callOne run i s = .next t) :
    Kept s t ∧ t.link = linkAfter s.link i ∧ t.result.isSome = true := by
  cases i <;> simp only [unitOf, reduceCtorEq] at u
  case ingest b =>
    obtain ⟨_, ⟨c, rfl⟩ | ⟨c, _, v, hv, rfl⟩⟩ := ingestWith_next h
    · refine ⟨((Kept.rfl' s).withLink free (fun iv => Link.inv_accept iv b c)).answer _, ?_, rfl⟩
      simp only [linkAfter, if_neg (fun e => c ((Link.complete_iff _).1 e))]; rfl
    · refine ⟨finish_kept k hv free, ?_, rfl⟩
      simp only [linkAfter, if_pos ((Link.complete_iff _).2 c)]; rfl
  case frameScan => obtain ⟨_, _, v, hv, rfl⟩ := frameScanWith_next h; exact ⟨finish_kept k (l := s.link) hv free, rfl, rfl⟩
  case frameEcho => obtain ⟨_, _, v, hv, rfl⟩ := frameEchoWith_next h; exact ⟨finish_kept k (l := s.link) hv free, rfl, rfl⟩
  case resetLink =>
    obtain ⟨_, rfl⟩ := resetLinkOp_next h
    exact ⟨((Kept.rfl' s).withLink free (fun _ => Link.inv_empty)).answer _, rfl, rfl⟩

/-- What any operation a consumer can call keeps, whatever its own consumers call. -/
theorem callOne_kept {run : Caller} (k : Keeps run) {i : Instr} {s t : State} (n : i ≠ .frameScan ∧ i ≠ .frameEcho)
    (h : callOne run i s = .next t) : Kept s t := by
  cases u : unitOf i with
  | timer => exact (callOne_timer k u h).1
  | link =>
    by_cases m : Callback.onByte ∈ s.inside
    · rw [callOne_reentrant (.inr ⟨u, n.1, n.2, m⟩)] at h; cases h
    · exact (callOne_link k u m h).1

theorem runCalls_keeps {inner : Caller} (k : Keeps inner) : Keeps (runCalls inner) := by
  intro ps
  induction ps with
  | nil => intro s t h; cases h; exact .rfl' _
  | cons p ps ih =>
    intro s t h
    simp only [runCalls] at h
    split at h
    · cases h
    · case h_2 i e =>
      obtain ⟨u, hu, ht⟩ := andThen_eq_next.1 h
      exact (callOne_kept k (decode_port_ne_handler e) hu).noteReturn.trans (ih _ _ ht)

theorem calls_keeps : Keeps calls := runCalls_keeps noCalls_keeps

/-- Everything a TIMER operation can do to TIMER, whatever its consumer calls. -/
theorem exec_timer {i : Instr} {s t : State} (u : unitOf i = .timer) (h : exec i s = .next t) :
    Kept s t ∧ t.timer = timerAfter s.timer i ∧ t.result.isSome = true ∧
      t.irqNotices = s.irqNotices ++ (if t.timer.irq = s.timer.irq then [] else [t.timer.irq]) :=
  callOne_timer calls_keeps u (exec_eq_callOne i s ▸ h)

/-- Everything a LINK operation can do to LINK, whatever its consumer calls. -/
theorem exec_link {i : Instr} {s t : State} (u : unitOf i = .link) (free : Callback.onByte ∉ s.inside) (h : exec i s = .next t) :
    Kept s t ∧ t.link = linkAfter s.link i ∧ t.result.isSome = true := callOne_link calls_keeps u free (exec_eq_callOne i s ▸ h)

/-- Everything any operation can do to the ports, from inside any callback and whatever its consumers call. -/
theorem exec_ports {i : Instr} {s t : State} (h : exec i s = .next t) : PortsKept s t ∧ t.result.isSome = true := by
  by_cases m : Callback.onByte ∈ s.inside
  · cases u : unitOf i with
    | timer => exact ⟨(exec_timer u h).1.ports, (exec_timer u h).2.2.1⟩
    | link =>
      rw [exec_eq_callOne] at h
      cases i <;> simp only [unitOf, reduceCtorEq] at u
      case frameScan =>
        obtain ⟨_, _, v, hv, rfl⟩ := frameScanWith_next h
        obtain ⟨a, b, c, d, e, f, g⟩ := emitAll_ports calls_keeps hv
        exact ⟨⟨a, b, c, d, e, f, g⟩, rfl⟩
      case frameEcho =>
        obtain ⟨_, _, v, hv, rfl⟩ := frameEchoWith_next h
        obtain ⟨a, b, c, d, e, f, g⟩ := emitAll_ports calls_keeps hv
        exact ⟨⟨a, b, c, d, e, f, g⟩, rfl⟩
      all_goals rw [callOne_reentrant (.inr ⟨rfl, by simp, by simp, m⟩)] at h; cases h
  · cases u : unitOf i with
    | timer => exact ⟨(exec_timer u h).1.ports, (exec_timer u h).2.2.1⟩
    | link => exact ⟨(exec_link u m h).1.ports, (exec_link u m h).2.2⟩

/-! ### LINK operations whose consumer calls nothing -/

/-- INGEST of a byte that completes nothing (R161, R163). -/
theorem exec_ingest_open {s : State} {b : Byte} (h : Callback.onByte ∉ s.inside)
    (c : (s.link.accept b).expected ≠ some (s.link.accept b).rxbuf.length) :
    exec (.ingest b) s = .next ((s.withLink (s.link.accept b)).answer .done) := ingestWith_open h c

/-- INGEST of the byte that completes a frame (R161, R164, R166, R169). -/
theorem exec_ingest_complete {s : State} {b : Byte} (h : Callback.onByte ∉ s.inside) (k : s.sinkConnected = true) (q : s.sinkQuiet)
    (c : (s.link.accept b).expected = some (s.link.accept b).rxbuf.length) :
    exec (.ingest b) s =
      .next ((((s.withLink (s.link.accept b)).emitted (replyTo (s.link.accept b).rxbuf)).withLink
        { rxbuf := [], expected := none }).answer .done) :=
  (ingestWith_complete h c).trans (finishFrameWith_quiet calls_idle (s := s.withLink (s.link.accept b)) k q _)

/-- FRAME_SCAN on its operand (R167). -/
theorem exec_frameScan_ready {s : State} (h : s.link.scanReady = true) (k : s.sinkConnected = true) (q : s.sinkQuiet) :
    exec .frameScan s = .next (((s.emitted scanReply).withLink { rxbuf := [], expected := none }).answer .done) :=
  (frameScanWith_ready h).trans (finishFrameWith_quiet calls_idle k q _)

/-- FRAME_ECHO on its operand (R168). -/
theorem exec_frameEcho_ready {s : State} (h : s.link.echoReady = true) (k : s.sinkConnected = true) (q : s.sinkQuiet) :
    exec .frameEcho s = .next (((s.emitted s.link.rxbuf).withLink { rxbuf := [], expected := none }).answer .done) :=
  (frameEchoWith_ready h).trans (finishFrameWith_quiet calls_idle k q _)

/-- RESET_LINK from outside `onByte` (R211). -/
theorem exec_resetLink_free {s : State} (h : Callback.onByte ∉ s.inside) :
    exec .resetLink s = .next ((s.withLink { rxbuf := [], expected := none }).answer .done) := resetLinkOp_free h

/-- What a LINK operation leaves of TIMER's side when the consumer of `onByte` calls nothing (R2). -/
theorem exec_link_timerSide {i : Instr} {s t : State} (u : unitOf i = .link) (q : s.sinkQuiet) (h : exec i s = .next t) :
    timerSideKept s t ∧ t.irqCalls = s.irqCalls := by
  have key : ∀ {out v} {l : Link}, emitAll calls out (s.withLink l) = .next v →
      timerSideKept s ((v.withLink { rxbuf := [], expected := none }).answer .done) ∧ v.irqCalls = s.irqCalls := by
    intro out v l hv
    rw [emitAll_quiet calls_idle out (s := s.withLink l) q] at hv
    cases hv
    exact ⟨⟨rfl, State.emitted_irqNotices _ _, State.emitted_advisories _ _⟩, rfl⟩
  rw [exec_eq_callOne] at h
  cases i <;> simp only [unitOf, reduceCtorEq] at u
  case ingest b =>
    obtain ⟨_, ⟨_, rfl⟩ | ⟨_, _, v, hv, rfl⟩⟩ := ingestWith_next h
    · exact ⟨⟨rfl, rfl, rfl⟩, rfl⟩
    · exact key hv
  case frameScan => obtain ⟨_, _, v, hv, rfl⟩ := frameScanWith_next h; exact key (l := s.link) hv
  case frameEcho => obtain ⟨_, _, v, hv, rfl⟩ := frameEchoWith_next h; exact key (l := s.link) hv
  case resetLink => obtain ⟨_, rfl⟩ := resetLinkOp_next h; exact ⟨⟨rfl, rfl, rfl⟩, rfl⟩

/-- TICK answers a next state only with the count it takes (R141, R142, R152). -/
theorem exec_tick_next {s t : State} (h : exec .tick s = .next t) : ∃ u, s.timer.tick = some u ∧ t.timer = u := by
  have m : Callback.irqChange ∉ s.inside := fun c => by
    rw [exec_eq_callOne, callOne_reentrant (.inl ⟨rfl, c⟩)] at h; cases h
  cases e : s.timer.tick with
  | none => rw [exec_tick_none m e] at h; cases h
  | some u => exact ⟨u, rfl, by rw [(exec_timer rfl h).2.1, timerAfter, e]; rfl⟩

/-- TIMER and its notices after any operation, but for a LINK operation whose consumer calls something (R2, R185). -/
theorem exec_timerSide {i : Instr} {s t : State} (q : unitOf i = .link → s.sinkQuiet) (h : exec i s = .next t) :
    t.timer = timerAfter s.timer i ∧
      t.irqNotices = s.irqNotices ++ (if t.timer.irq = s.timer.irq then [] else [t.timer.irq]) := by
  cases u : unitOf i with
  | timer => exact ⟨(exec_timer u h).2.1, (exec_timer u h).2.2.2⟩
  | link =>
    obtain ⟨⟨a, b, _⟩, _⟩ := exec_link_timerSide u (q u) h
    refine ⟨?_, by rw [a, if_pos rfl, List.append_nil, b]⟩
    rw [a]; cases i <;> first | rfl | cases u

/-- A sink that calls nothing is one still after any operation. -/
theorem State.sinkQuiet_of_suffix {s t : State} (q : s.sinkQuiet) (h : t.onByteCalls <:+ s.onByteCalls) : t.sinkQuiet :=
  fun c hc => q c (h.subset hc)

/-! ### What runs inside a callback (R54) -/

/-- A TIMER operation depends on what runs its consumer's calls only from inside its own notification. -/
theorem callOne_timer_congr {r r' : Caller} {i : Instr} {s : State} (u : unitOf i = .timer)
    (h : ∀ ps t, t.inside = .irqChange :: s.inside → r ps t = r' ps t) : callOne r i s = callOne r' i s := by
  have same : ∀ (z : State) t, z.inside = s.inside → setTimer r z t = setTimer r' z t := by
    intro z t hz
    simp only [setTimer, notifyIrq, insideCallback]
    split
    · rfl
    · rw [h]; simp [hz]
  cases i <;> simp only [unitOf, reduceCtorEq] at u <;> simp only [callOne, timerOpWith] <;>
    (split; rfl; split; rfl; rw [same _ _ (by simp)])

/-- An emission depends on what runs its consumer's calls only from inside `onByte`. -/
theorem emitAll_congr {r r' : Caller} {out : List Byte} {s : State}
    (h : ∀ ps t, t.inside = .onByte :: s.inside → r ps t = r' ps t) : emitAll r out s = emitAll r' out s := by
  induction out generalizing s with
  | nil => rfl
  | cons b out ih =>
    simp only [emitAll, emitByte, insideCallback]
    rw [h _ _ (by simp)]
    generalize r' _ _ = o
    cases o <;> simp [andThen]
    exact ih h

/-- A LINK operation depends on what runs its consumer's calls only from inside `onByte`. -/
theorem callOne_link_congr {r r' : Caller} {i : Instr} {s : State} (u : unitOf i = .link)
    (h : ∀ ps t, t.inside = .onByte :: s.inside → r ps t = r' ps t) : callOne r i s = callOne r' i s := by
  have same : ∀ (z : State) out, z.inside = s.inside → finishFrameWith r z out = finishFrameWith r' z out := by
    intro z out hz
    rw [finishFrameWith, finishFrameWith, emitAll_congr (by rw [hz]; exact h)]
  cases i <;> simp only [unitOf, reduceCtorEq] at u <;> simp only [callOne]
  · rw [ingestWith_eq, ingestWith_eq, same _ _ (by simp)]
  · simp only [frameScanWith, same _ _ rfl]
  · simp only [frameEchoWith, same _ _ rfl]

/-- Inside a callback the consumer's calls are operations of `exec` run at that point (R54 case a). -/
theorem calls_eq_execCalls (ps : List PortInput) {s : State} (h : s.inside ≠ []) : calls ps s = execCalls ps s := by
  induction ps generalizing s with
  | nil => rfl
  | cons p ps ih =>
    rw [calls, runCalls, execCalls]
    cases x : decode (.port p) with
    | error r => rfl
    | ok i =>
      obtain ⟨c, hc⟩ := List.exists_mem_of_ne_nil _ h
      have e : callOne noCalls i s = exec i s := by
        rw [exec_eq_callOne]
        cases u : unitOf i with
        | timer =>
          by_cases m : Callback.irqChange ∈ s.inside
          · rw [callOne_reentrant (.inl ⟨u, m⟩), callOne_reentrant (.inl ⟨u, m⟩)]
          · have l : Callback.onByte ∈ s.inside := by cases c <;> first | exact hc | exact absurd hc m
            exact callOne_timer_congr u (fun ps t ht => (runCalls_insideBoth _ _ (by simp [ht]) (by simp [ht, l])).symm)
        | link =>
          have n := decode_port_ne_handler x
          by_cases m : Callback.onByte ∈ s.inside
          · rw [callOne_reentrant (.inr ⟨u, n.1, n.2, m⟩), callOne_reentrant (.inr ⟨u, n.1, n.2, m⟩)]
          · have l : Callback.irqChange ∈ s.inside := by cases c <;> first | exact hc | exact absurd hc m
            exact callOne_link_congr u (fun ps t ht => (runCalls_insideBoth _ _ (by simp [ht, l]) (by simp [ht])).symm)
      show andThen (callOne noCalls i s) _ = andThen (exec i s) _
      rw [e]
      cases k : exec i s with
      | next t => exact ih (by rw [State.noteReturn_inside, (exec_ports k).1.inside]; exact h)
      | fault r => rfl
      | refused r => rfl

/-- The emission of a reply, in terms of `exec` (R54, R166). -/
theorem emitAll_eq_emission (out : List Byte) (s : State) : emitAll calls out s = emission out s := by
  induction out generalizing s with
  | nil => rfl
  | cons b out ih =>
    simp only [emitAll, emitByte, insideCallback, emission]
    rw [calls_eq_execCalls _ (by simp)]
    change andThen (andThen (execCalls (s.onByteCalls.headD [])
      { s with outputs := s.outputs ++ [.byte b], onByteCalls := s.onByteCalls.tail, inside := .onByte :: s.inside }) _) _ = _
    generalize execCalls _ _ = o
    cases o <;> first | rfl | exact ih _

/-! ### Sequences -/

/-- A sequence is its first part and then its second. -/
theorem execAll_append (a b : List Instr) (s : State) : execAll (a ++ b) s = andThen (execAll a s) (execAll b) := by
  induction a generalizing s with
  | nil => rfl
  | cons i a ih =>
    simp only [List.cons_append, execAll]
    cases exec i s with
    | next t => exact ih t
    | fault r => rfl
    | refused r => rfl

theorem execAll_one (i : Instr) (s : State) : execAll [i] s = exec i s := by
  simp only [execAll]; cases exec i s <;> rfl

theorem ticks_succ (n : Nat) : ticks (n + 1) = ticks n ++ [.tick] := by simp [ticks, List.replicate_succ']

theorem ticks_add (n m : Nat) : ticks (n + m) = ticks n ++ ticks m := List.replicate_add n m _

theorem receives_append (a b : List Byte) : receives (a ++ b) = receives a ++ receives b := List.map_append

end Sys2Proof.Machine
end

