-- ==== Sys2Proof/Laws/PerInstr.lean ====
section
/-! SUPPORT. Statements for all instructions, one lemma per constructor: a well-formed instruction's selector is well-formed. -/

namespace Sys2Proof.Laws.EncodeWellFormed

/-- The selector of a well-formed instruction passes the check on selectors (R42, R76). -/
def Statement (i : Instr) : Prop := i.wf = true → (encode i).wf = true

theorem rdControl1 : Statement .rdControl1 := fun _ => rfl
theorem wrControl1 (w : Word) : Statement (.wrControl1 w) := fun _ => rfl
theorem rdDier : Statement .rdDier := fun _ => rfl
theorem wrDier (w : Word) : Statement (.wrDier w) := fun _ => rfl
theorem rdStatus : Statement .rdStatus := fun _ => rfl
theorem wrStatus (w : Word) : Statement (.wrStatus w) := fun _ => rfl
theorem rdEventgen : Statement .rdEventgen := fun _ => rfl
theorem wrEventgen (w : Word) : Statement (.wrEventgen w) := fun _ => rfl
theorem rdCounter : Statement .rdCounter := fun _ => rfl
theorem wrCounter (w : Word) : Statement (.wrCounter w) := fun _ => rfl
theorem rdPrescaler : Statement .rdPrescaler := fun _ => rfl
theorem wrPrescaler (w : Word) : Statement (.wrPrescaler w) := fun _ => rfl
theorem rdAutoreload : Statement .rdAutoreload := fun _ => rfl
theorem wrAutoreload (w : Word) : Statement (.wrAutoreload w) := fun _ => rfl
theorem rdUnmapped (off : Word) : Statement (.rdUnmapped off) := fun _ => rfl
theorem wrUnmapped (off : Word) (w : Word) : Statement (.wrUnmapped off w) := fun _ => rfl
theorem tick : Statement .tick := fun _ => rfl
theorem resetTimer : Statement .resetTimer := fun _ => rfl
theorem ingest (b : Byte) : Statement (.ingest b) := fun _ => rfl
theorem frameScan : Statement .frameScan := fun _ => rfl
theorem frameEcho : Statement .frameEcho := fun _ => rfl
theorem resetLink : Statement .resetLink := fun _ => rfl

end Sys2Proof.Laws.EncodeWellFormed
end

