-- ==== Sys2Proof/Tests/Slice0.lean ====
section
/-! SUPPORT. The model's own tests, each on one step, with expected values from the spec's rules and vectors (95_test_vectors.md), and
for every obligation with a hypothesis a witness that meets its hypotheses. -/

namespace Sys2Proof.Tests

open Sys2Proof.Machine

/-! ### Small states -/

/-- A timer `value/presc/limit` with its divider, Enabled, everything else off, the pending limit equal to the limit. -/
def run (value : Word) (presc : Nat) (limit : Word) (divider : Nat) : Timer :=
  { value := value, presc := presc, divider := divider, limit := limit, autoReloadValue := limit, enabled := true,
    updateDisable := false, updateRequestSource := false, mode := .periodic, autoReloadPreloadEnable := false,
    interruptEnable := false, interruptFlag := false }

/-- The same with the interrupt enabled. -/
def runIE (value : Word) (presc : Nat) (limit : Word) (divider : Nat) : Timer :=
  { run value presc limit divider with interruptEnable := true }

/-- CORE with this TIMER and everything else as after reset. -/
def withT (t : Timer) : State := { State.reset with timer := t }

/-- CORE with this buffer and expected size, and everything else as after reset. -/
def withL (bytes : List Byte) (expected : Option Nat) : State := { State.reset with link := { rxbuf := bytes, expected := expected } }

/-- The state an outcome holds. -/
def nextOf : Host.Outcome State Fault Refusal → Option State
  | .next s => some s
  | .fault _ => none
  | .refused _ => none

/-- The reason an outcome is refused. -/
def refusalIn : Host.Outcome State Fault Refusal → Option Refusal
  | .next _ => none
  | .fault _ => none
  | .refused r => some r

/-- TIMER after one operation. -/
def timerThen (i : Instr) (t : Timer) : Option Timer := (nextOf (exec i (withT t))).map (·.timer)

/-- The word a bus read returns. -/
def readOf (i : Instr) (t : Timer) : Option Result := (nextOf (exec i (withT t))).bind (·.result)

/-- `value`, `presc` and `limit`, as 95_test_vectors.md writes a TIMER state. -/
def vpl (t : Timer) : Word × Nat × Word := (t.value, t.presc, t.limit)

/-! ### WellFormed refuses ill-formed terms -/

theorem test_wf_refuses_a_mapped_offset_read : (Instr.rdUnmapped 0x00).wf = false := by decide
theorem test_wf_refuses_a_mapped_offset_write : (Instr.wrUnmapped 0x2C 0x1).wf = false := by decide
theorem test_wf_refuses_a_half_word_read : (PortInput.busRead 2 0x24).wf = false := by decide
theorem test_wf_refuses_a_byte_write : (PortInput.busWrite 1 0x24 0).wf = false := by decide
theorem test_wf_refuses_a_narrow_selector : (Encoded.port (.busRead 8 0x24)).wf = false := by decide
/-- The unmapped offsets of V10, and the nearest mapped ones. -/
theorem test_wf_unmapped_offsets :
    ([0x04, 0x08, 0x18, 0x1C, 0x20, 0x30, 0x01, 0x26, 0xFFFFFFFC] : List Word).all isUnmapped = true ∧
    ([0x00, 0x0C, 0x10, 0x14, 0x24, 0x28, 0x2C] : List Word).any isUnmapped = false := by decide

/-! ### Decoding: every row of R76 by a selector written out from R41, R62 and R77 -/

theorem test_decode_rdControl1 : decode (.port (.busRead 4 0x00000000#32)) = .ok .rdControl1 := rfl
theorem test_decode_wrControl1 : decode (.port (.busWrite 4 0x00000000#32 0x0000008F#32)) = .ok (.wrControl1 0x8F#32) := rfl
theorem test_decode_rdDier : decode (.port (.busRead 4 0x0000000C#32)) = .ok .rdDier := rfl
theorem test_decode_wrDier : decode (.port (.busWrite 4 0x0000000C#32 0x00000101#32)) = .ok (.wrDier 0x101#32) := rfl
theorem test_decode_rdStatus : decode (.port (.busRead 4 0x00000010#32)) = .ok .rdStatus := rfl
theorem test_decode_wrStatus : decode (.port (.busWrite 4 0x00000010#32 0xFFFFFFFE#32)) = .ok (.wrStatus 0xFFFFFFFE#32) := rfl
theorem test_decode_rdEventgen : decode (.port (.busRead 4 0x00000014#32)) = .ok .rdEventgen := rfl
theorem test_decode_wrEventgen : decode (.port (.busWrite 4 0x00000014#32 0x00000001#32)) = .ok (.wrEventgen 1#32) := rfl
theorem test_decode_rdCounter : decode (.port (.busRead 4 0x00000024#32)) = .ok .rdCounter := rfl
theorem test_decode_wrCounter : decode (.port (.busWrite 4 0x00000024#32 0x12345678#32)) = .ok (.wrCounter 0x12345678#32) := rfl
theorem test_decode_rdPrescaler : decode (.port (.busRead 4 0x00000028#32)) = .ok .rdPrescaler := rfl
theorem test_decode_wrPrescaler : decode (.port (.busWrite 4 0x00000028#32 0xFFFFFFFF#32)) = .ok (.wrPrescaler 0xFFFFFFFF#32) := rfl
theorem test_decode_rdAutoreload : decode (.port (.busRead 4 0x0000002C#32)) = .ok .rdAutoreload := rfl
theorem test_decode_wrAutoreload : decode (.port (.busWrite 4 0x0000002C#32 0x00000064#32)) = .ok (.wrAutoreload 0x64#32) := rfl
theorem test_decode_rdUnmapped : decode (.port (.busRead 4 0x00000026#32)) = .ok (.rdUnmapped 0x26#32) := rfl
theorem test_decode_wrUnmapped : decode (.port (.busWrite 4 0xFFFFFFFC#32 0#32)) = .ok (.wrUnmapped 0xFFFFFFFC#32 0#32) := rfl
theorem test_decode_signals :
    decode (.port .tickSignal) = .ok .tick ∧ decode (.port .timerResetSignal) = .ok .resetTimer ∧
    decode (.port (.byteIn 0xBC)) = .ok (.ingest 0xBC) ∧ decode (.port .linkResetSignal) = .ok .resetLink := ⟨rfl, rfl, rfl, rfl⟩
/-- 0x20 is scan and its neighbours 0x21 and 0x1F are not (V60, V61). -/
theorem test_decode_commands :
    decodeCommand 0x20 = .frameScan ∧ decodeCommand 0x21 = .frameEcho ∧ decodeCommand 0x1F = .frameEcho := by decide
theorem test_decode_refuses_a_half_word : decode (.port (.busRead 2 0x24#32)) = .error (.accessWidth 2) := rfl
/-- The frame layout (R70 to R72): 4 bytes fix the size, 6 complete it, and the next byte begins the next frame. -/
theorem test_splitFrame :
    splitFrame [0xBC, 0xCF, 0x05] = none ∧ splitFrame [0xBC, 0xCF, 0x05, 0x00, 0x11] = none ∧
    splitFrame [0xBC, 0xCF, 0x05, 0x00, 0x11, 0x22, 0x33] = some ([0xBC, 0xCF, 0x05, 0x00, 0x11, 0x22], [0x33]) := by decide
theorem test_frameTotal_of_the_longest_length : frameTotal [0x00, 0x00, 0x20, 0xFF] = some 261 := by decide

/-! ### Table words, and the step after reset that runs one (log entries 2 and 3) -/

theorem test_table_words :
    decodeTableWord 32 0x0C = some .rdDier ∧ decodeTableWord 32 0x04 = some (.rdUnmapped 0x04) ∧
    decodeTableWord 64 0x0000000100000014 = some (.wrEventgen 1) ∧ decodeTableWord 8 0x20 = some .frameScan ∧
    decodeTableWord 8 0x00 = some (.ingest 0x00) ∧ decodeTableWord 0 0 = some .tick := by decide
theorem test_step_runs_a_placed_write :
    (nextOf (step (State.reset.withFetchWord 64 0x0000008900000000))).map (fun s => (s.timer.enabled, s.timer.mode, s.inputs)) =
      some (true, .oneShot, []) := by decide
theorem test_step_runs_a_placed_scan :
    (nextOf (step (State.reset.withFetchWord 8 0x20))).map (fun s => (s.sent, s.link.rxbuf)) =
      some ([0xBC, 0xCF, 0x20, 0x01, 0x00, 0x21, 0x62], []) := by decide
theorem test_step_with_nothing_invoked : nextOf (step State.reset) = some State.reset := rfl
theorem test_step_refuses_a_byte_access :
    refusalIn (step { State.reset with inputs := [.busRead 1 0x24] }) = some (.accessWidth 1) := by decide

/-! ### Reset (R34) -/

/-- V11 but for AutoReload. -/
theorem test_reset_reads :
    readOf .rdControl1 Timer.powerOn = some (.word 0) ∧ readOf .rdDier Timer.powerOn = some (.word 0) ∧
    readOf .rdStatus Timer.powerOn = some (.word 0) ∧ readOf .rdEventgen Timer.powerOn = some (.word 0) ∧
    readOf .rdCounter Timer.powerOn = some (.word 0) ∧ readOf .rdPrescaler Timer.powerOn = some (.word 0) := by decide
/-- V11, AutoReload. -/
theorem test_reset_reads_autoreload : readOf .rdAutoreload Timer.powerOn = some (.word Config.initialLimit) := rfl

/-! ### Register operations (R110 to R123) -/

/-- V12: the five fields of a word of all ones, and their read. -/
theorem test_wrControl1_all_ones :
    (timerThen (.wrControl1 0xFFFFFFFF) (run 0 0 5 1)).map (·.readControl1) = some 0x8F := by decide
/-- V13: reserved bits 4 to 6 store nothing. -/
theorem test_wrControl1_reserved : (timerThen (.wrControl1 0x70) (run 0 0 5 1)).map (·.readControl1) = some 0 := by decide
/-- P2 line 9: the enable bit reads 0 after a one-shot stop, mode and preload still read 1. -/
theorem test_rdControl1_after_one_shot :
    readOf .rdControl1 { run 0 0 2 1 with enabled := false, mode := .oneShot, autoReloadPreloadEnable := true } = some (.word 0x88) := by
  decide
/-- V14: bit 8 is a tag. -/
theorem test_wrDier_tag : (timerThen (.wrDier 0xFFFFFFFF) (run 0 0 5 1)).map (·.readDier) = some 1 := by decide
/-- V25: clearing the enable drops the line and keeps the flag. -/
theorem test_wrDier_drops_the_line :
    (nextOf (exec (.wrDier 0) (withT { runIE 0 0 5 1 with interruptFlag := true }))).map
      (fun s => (s.irq, s.timer.interruptFlag, s.irqNotices)) = some (false, true, [false]) := by decide
/-- V25 and R112. -/
theorem test_rdDier : readOf .rdDier (runIE 0 0 5 1) = some (.word 1) := by decide
/-- R114's example: reading keeps the flag. -/
theorem test_rdStatus :
    readOf .rdStatus { run 0 0 5 1 with interruptFlag := true } = some (.word 1) ∧
    (timerThen .rdStatus { run 0 0 5 1 with interruptFlag := true }).map (·.interruptFlag) = some true := by decide
/-- V16: bit 0 clear clears the flag, whatever the other bits. -/
theorem test_wrStatus_clears :
    (timerThen (.wrStatus 0xFFFFFFFE) { run 0 0 5 1 with interruptFlag := true }).map (·.interruptFlag) = some false := by decide
/-- V15 and V17: a written 1 neither clears nor sets it. -/
theorem test_wrStatus_keeps :
    (timerThen (.wrStatus 0x1) { run 0 0 5 1 with interruptFlag := true }).map (·.interruptFlag) = some true ∧
    (timerThen (.wrStatus 0xFFFFFFFF) (run 0 0 5 1)).map (·.interruptFlag) = some false := by decide
/-- V24. -/
theorem test_rdEventgen : readOf .rdEventgen (runIE 3 1 5 2) = some (.word 0) := by decide
/-- V36: the forced event clears counter and phase and raises flag and line. -/
theorem test_wrEventgen_forces :
    (nextOf (exec (.wrEventgen 1) (withT (runIE 2 1 0xA 3)))).map (fun s => (vpl s.timer, s.timer.interruptFlag, s.irq, s.advisories)) =
      some ((0, 0, 0xA), true, true, []) := by decide
/-- V37 (update request source), V38 (update disable), V39 (a written 0) and V43 (no reload of the limit). -/
theorem test_wrEventgen_conditions :
    (timerThen (.wrEventgen 1) { runIE 1 1 0xA 3 with updateRequestSource := true }).map (fun t => (vpl t, t.interruptFlag)) =
      some ((0, 0, 0xA), false) ∧
    (timerThen (.wrEventgen 1) { runIE 1 2 0xA 3 with updateDisable := true }).map vpl = some (1, 2, 0xA) ∧
    (timerThen (.wrEventgen 0xFFFFFFFE) (runIE 1 2 0xA 3)).map vpl = some (1, 2, 0xA) ∧
    (timerThen (.wrEventgen 1) { run 0 0 4 1 with autoReloadPreloadEnable := true, autoReloadValue := 2 }).map vpl = some (0, 0, 4) := by
  decide
/-- R118's corner case: the counter, not the phase. -/
theorem test_rdCounter : readOf .rdCounter (run 2 3 5 4) = some (.word 2) := by decide
/-- V31's first line: the counter is stored and the phase restarts. -/
theorem test_wrCounter : (timerThen (.wrCounter 2) (run 0 3 5 4)).map vpl = some (2, 0, 5) := by decide
/-- R120's example: the largest divider reads back as it was written. -/
theorem test_rdPrescaler : readOf .rdPrescaler (run 0 0 5 4294967296) = some (.word 0xFFFFFFFF) := by decide
/-- V20: the divider does not wrap to 0. -/
theorem test_wrPrescaler : (timerThen (.wrPrescaler 0xFFFFFFFF) (run 0 3 5 4)).map (fun t => (t.divider, t.presc)) = some (4294967296, 0) := by
  decide
/-- P2 line 5: the pending value, not the limit. -/
theorem test_rdAutoreload : readOf .rdAutoreload { run 0 0 4 1 with autoReloadValue := 2 } = some (.word 2) := by decide
/-- V21 and V22: at once with preload off, deferred with preload on. -/
theorem test_wrAutoreload :
    (timerThen (.wrAutoreload 0x64) (run 0 0 0xFFFF 1)).map (fun t => (t.autoReloadValue, t.limit)) = some (0x64, 0x64) ∧
    (timerThen (.wrAutoreload 0x64) { run 0 0 0xFFFF 1 with autoReloadPreloadEnable := true }).map
      (fun t => (t.autoReloadValue, t.limit)) = some (0x64, 0xFFFF) := by decide
/-- V10: the report, no data, no change. -/
theorem test_rdUnmapped :
    exec (.rdUnmapped 0x26) (withT (run 2 1 5 2)) = .next { withT (run 2 1 5 2) with result := some (.unmappedAccess 0x26) } := rfl
/-- V10. -/
theorem test_wrUnmapped :
    exec (.wrUnmapped 0xFFFFFFFC 0) (withT (run 2 1 5 2)) =
      .next { withT (run 2 1 5 2) with result := some (.unmappedAccess 0xFFFFFFFC) } := rfl

/-! ### Counting (R141 to R152) and RESET_TIMER -/

/-- V27: the last tick of the last group wraps and raises the flag. -/
theorem test_tick_limit_event :
    (timerThen .tick (runIE 2 1 3 2)).map (fun t => (vpl t, t.interruptFlag, t.enabled)) = some ((0, 0, 3), true, true) := by decide
/-- V35: the wrap and the one-shot stop under update disable, with no reload and no flag; and V41 and V40, refused. -/
theorem test_tick_corners :
    (timerThen .tick { runIE 2 0 3 1 with mode := .oneShot, updateDisable := true, autoReloadValue := 5 }).map
      (fun t => (vpl t, t.interruptFlag, t.enabled)) = some ((0, 0, 3), false, false) ∧
    refusalIn (exec .tick (withT (run 0 0 0 1))) = some .tickOutsideDomain ∧
    refusalIn (exec .tick (withT (run 5 0 5 1))) = some .tickOutsideDomain := by decide
/-- R210's example: back at the reset values, line low. -/
theorem test_resetTimer :
    (nextOf (exec .resetTimer (withT { runIE 7 3 5 9 with interruptFlag := true, mode := .oneShot }))).map
      (fun s => (s.timer, s.irq, s.link)) = some (Timer.powerOn, false, Link.powerOn) := rfl

/-! ### LINK (R161 to R172) -/

/-- V53: the 4th byte latches the size. -/
theorem test_ingest_latches :
    (nextOf (exec (.ingest 0x01) (withL [0xBC, 0xCF, 0x20] none))).map (fun s => (s.link.rxbuf.length, s.link.expected, s.sent)) =
      some (4, some 7, []) := by decide
/-- E6: the 6th byte of a frame with another command echoes it whole. -/
theorem test_ingest_echoes :
    (nextOf (exec (.ingest 0x22) (withL [0xBC, 0xCF, 0x05, 0x00, 0x11] (some 6)))).map (fun s => (s.sent, s.link)) =
      some ([0xBC, 0xCF, 0x05, 0x00, 0x11, 0x22], { rxbuf := [], expected := none }) := by decide
/-- V54: the header is not looked at. -/
theorem test_frameScan :
    (nextOf (exec .frameScan (withL [0x11, 0x22, 0x20, 0x00, 0x33, 0x44] (some 6)))).map (·.sent) =
      some [0xBC, 0xCF, 0x20, 0x01, 0x00, 0x21, 0x62] := by decide
/-- V58: wrong checksums leave as they came. -/
theorem test_frameEcho :
    (nextOf (exec .frameEcho (withL [0xBC, 0xCF, 0xFF, 0x02, 0xFF, 0x80, 0x80, 0x80] (some 8)))).map (·.sent) =
      some [0xBC, 0xCF, 0xFF, 0x02, 0xFF, 0x80, 0x80, 0x80] := by decide
/-- E7: a partial frame is dropped without an echo. -/
theorem test_resetLink :
    (nextOf (exec .resetLink (withL [0xBC, 0xCF, 0x20, 0x09] (some 15)))).map (fun s => (s.link, s.sent)) =
      some ({ rxbuf := [], expected := none }, []) := by decide
/-- V47 to V50. -/
theorem test_buildFrame :
    buildFrame 0x00 0 [] = [0xBC, 0xCF, 0x00, 0x00, 0x00, 0x00] ∧
    buildFrame 0x13 4 [0x01, 0x02, 0x03, 0x04] = [0xBC, 0xCF, 0x13, 0x04, 0x01, 0x02, 0x03, 0x04, 0x21, 0x9A] ∧
    buildFrame 0xFF 2 [0xFF, 0x80] = [0xBC, 0xCF, 0xFF, 0x02, 0xFF, 0x80, 0x80, 0x80] ∧
    buildFrame 0x80 3 [0x80, 0x80, 0x80] = [0xBC, 0xCF, 0x80, 0x03, 0x80, 0x80, 0x80, 0x03, 0x8C] := by decide

/-! ### Calls from inside callbacks (R54) -/

/-- A state one tick before a limit event that changes the line, the consumer of the notice making these calls. -/
def noticing (ps : List PortInput) : State := { withT (runIE 3 0 4 1) with irqCalls := [ps] }

/-- A state one byte before a frame with this command completes, the consumer of `onByte` making these calls on its first byte. -/
def replying (command : Byte) (ps : List PortInput) : State :=
  { withL [0xBC, 0xCF, command, 0x00, 0x11] (some 6) with onByteCalls := [ps] }

/-- Case a: a call into TIMER from inside `onByte` runs after its byte and before the next. -/
theorem test_call_between_bytes :
    (nextOf (exec (.ingest 0x22) (replying 0x21 [.busWrite 4 0x24 7, .busRead 4 0x24]))).map (fun s => (s.outputs, s.timer.value, s.result)) =
      some ([.byte 0xBC, .returned .done, .returned (.word 7), .byte 0xCF, .byte 0x21, .byte 0x00, .byte 0x11, .byte 0x22], 7, some .done) := by
  decide
/-- Case a: a byte from inside the notice of a changed line reaches LINK before the tick returns. -/
theorem test_call_from_a_notice :
    (nextOf (exec .tick (noticing [.byteIn 0xBC]))).map (fun s => (s.outputs, s.link.rxbuf, s.inside, s.irqCalls)) =
      some ([.irq true, .returned .done], [0xBC], [], []) := by decide
/-- Case b: a call into the unit whose callback is running. -/
theorem test_reentrant_calls :
    refusalIn (exec (.ingest 0x22) (replying 0x21 [.byteIn 0x00])) = some .reentrantLinkCall ∧
    refusalIn (exec .tick (noticing [.busRead 4 0x24])) = some .reentrantTimerCall ∧
    refusalIn (exec .tick (noticing [.busRead 2 0x24])) = some (.accessWidth 2) := by decide

/-! ### The register bank (R91, R92, R94) -/

/-- A 4-bit field at bits 7:4 of this mode, with no hooks. -/
def field4 (mode : AccessMode) : BankField Unit := { lo := 4, width := 4, mode := mode, reset := 0, writeHook := none, readHook := none }

/-- A unit in which that field holds `stored`. -/
def holding (stored : Word) : BankUnit Unit := { stored := [((0x10, 4), stored)], rest := () }

/-- What the field holds after this slice is written. -/
def storedAfter (mode : AccessMode) (stored slice : Word) : Word :=
  ((field4 mode).write 0x10 (slice <<< 4) (holding stored)).value (0x10, 4)

/-- V1 to V6 and V9. -/
theorem test_bank_modes :
    storedAfter .readWrite 0x5 0xA = 0xA ∧ storedAfter .readOnly 0x5 0xA = 0x5 ∧ storedAfter .writeOneToClear 0xF 0x5 = 0xA ∧
    storedAfter .writeOneToClear 0xA 0x0 = 0xA ∧ storedAfter .writeZeroToClear 0xF 0x5 = 0x5 ∧
    storedAfter .writeZeroToClear 0x5 0xF = 0x5 ∧ storedAfter .writeZeroToClear 0x0 0x1 = 0x0 := by decide

/-- Two registers over a unit that counts. The first has a hooked bit, a plain field, and a hooked bit above it that reads the plain
field's stored value and sets the stored bit of the other register; then a post-write hook. The other is one plain bit. -/
def counting : Bank Nat :=
  [ (0x10,
      ⟨[ { lo := 0, width := 1, mode := .writeOneToClear, reset := 0
           writeHook := some (fun s u => { u with rest := 10 * u.rest + s.toNat }), readHook := none },
         { lo := 4, width := 4, mode := .readWrite, reset := 6, writeHook := none, readHook := none },
         { lo := 8, width := 1, mode := .readWrite, reset := 0
           writeHook := some (fun s u => { u with rest := 10 * u.rest + (u.value (0x10, 4)).toNat }.store (0x20, 0) s)
           readHook := some (fun u => (BitVec.ofNat 32 u.rest, { u with rest := u.rest + 1 })) } ],
       some (fun u => { u with rest := 10 * u.rest + 9 })⟩),
    (0x20, ⟨[{ lo := 0, width := 1, mode := .readOnly, reset := 0, writeHook := none, readHook := none }], none⟩) ]

/-- That unit, the plain field at 5 and the count at 7. -/
def countUnit : BankUnit Nat := { stored := [((0x10, 0), 0), ((0x10, 4), 5), ((0x10, 8), 0), ((0x20, 0), 0)], rest := 7 }

/-- R94 and R95: in ascending order; the upper hook sees the stored value the field below it has just taken, and writes another register's
stored value; the post-write hook comes last. -/
theorem test_bank_hooks_in_order :
    (bankWrite counting 0x10 0x121 countUnit).toOption.map (fun u => (u.rest, u.value (0x10, 4), u.value (0x20, 0))) =
      some (7129, 2, 1) := by decide
/-- R92: the stored value and the read hook's answer, cut to its width, each in its place. -/
theorem test_bank_read_hook : (bankRead counting 0x10 countUnit).toOption.map (fun a => (a.1, a.2.rest)) = some (0x150, 8) := by decide

/-! ### Witnesses: for every obligation with a hypothesis, states and operands that meet its hypotheses together -/

/-- LINK with the sink connected, holding the six bytes of a completed frame. -/
def sixBytes (command : Byte) : State := withL [0xBC, 0xCF, command, 0x00, 0x01, 0x02] (some 6)

theorem witness_DecodeAndEncodeAgree :
    (Instr.rdUnmapped 0x04).wf = true ∧ (Instr.wrUnmapped 0xFFFFFFFF 0x1).wf = true ∧ Instr.frameEcho.wf = true ∧
    (PortInput.busRead 4 0x00).wf = true ∧ (PortInput.busWrite 4 0xFFFFFFFF 0x1).wf = true := by decide
theorem witness_StepRunsTheDecodedOperation :
    (let s := { State.reset with inputs := [.busRead 4 0x24, .tickSignal] }
     s.link.complete = false ∧ s.inputs = .busRead 4 0x24 :: [.tickSignal] ∧
       (decode (.port (.busRead 4 0x24))).toOption = some .rdCounter) ∧
    (sixBytes 0x20).link.complete = true ∧ (sixBytes 0x21).link.complete = true ∧
    (State.reset.link.complete = false ∧ State.reset.inputs = []) := by decide
theorem witness_OtherAccessWidthsAreRefused :
    (let s := { State.reset with inputs := [.busRead 3 0x24] }; 3 ≠ 4 ∧ s.link.complete = false ∧ s.inputs = .busRead 3 0x24 :: []) ∧
    (let s := { State.reset with inputs := [.busWrite 5 0x24 0] }; 5 ≠ 4 ∧ s.link.complete = false ∧ s.inputs = .busWrite 5 0x24 0 :: []) := by
  decide
theorem witness_BuiltFramesSplitBack : ([] : List Byte).length ≤ 255 ∧ (List.replicate 255 (0xFF : Byte)).length ≤ 255 :=
  ⟨Nat.zero_le _, Nat.le_of_eq List.length_replicate⟩
theorem witness_ReadControl1ReturnsTheFiveFields : Callback.irqChange ∉ State.reset.inside := by decide
theorem witness_WriteControl1StoresTheFiveFields : Callback.irqChange ∉ (withT (run 0 0 5 1)).inside := by decide
theorem witness_DierHoldsTheInterruptEnable :
    Callback.irqChange ∉ (withT (runIE 0 0 5 1)).inside ∧ (withT (runIE 0 0 5 1)).irqQuiet := by decide
theorem witness_ReadStatusReturnsTheFlagAndKeepsIt : Callback.irqChange ∉ State.reset.inside := by decide
theorem witness_WriteStatusClearsTheFlagByZeroOnly :
    Callback.irqChange ∉ (withT (runIE 0 0 5 1)).inside ∧ (withT (runIE 0 0 5 1)).irqQuiet := by decide
theorem witness_EventgenReadsZeroAndIgnoresZero :
    Callback.irqChange ∉ State.reset.inside ∧ (0xFFFFFFFE : Word).getLsbD 0 = false := by decide
theorem witness_ForcedEventClearsTheCounter :
    Callback.irqChange ∉ (withT (runIE 2 1 0xA 3)).inside ∧ (withT (runIE 2 1 0xA 3)).irqQuiet ∧ (0x1 : Word).getLsbD 0 = true := by decide
theorem witness_ForcedEventSkipsAnotherDirection :
    { run 0 0 5 1 with updateDisable := true }.updateDisable = true ∧
    (run 0 0 5 1).updateDisable = false ∧ Config.Direction.descending ≠ .ascending := by decide
theorem witness_ReadCounterReturnsTheCounter : Callback.irqChange ∉ State.reset.inside := by decide
theorem witness_WriteCounterStoresTheWord : Callback.irqChange ∉ (withT (run 0 3 5 4)).inside := by decide
theorem witness_PrescalerIsStoredPlusOneAndReadsBack :
    Callback.irqChange ∉ State.reset.inside ∧
    (let s := withT (run 0 0 5 1); 1 ≤ s.timer.divider ∧ s.timer.divider ≤ 4294967296) ∧
    (let s := withT (run 0 0 5 4294967296); 1 ≤ s.timer.divider ∧ s.timer.divider ≤ 4294967296) := by decide
theorem witness_ReadAutoreloadReturnsThePendingValue : Callback.irqChange ∉ State.reset.inside := by decide
theorem witness_WriteAutoreloadSetsTheLimitUnlessPreloaded : Callback.irqChange ∉ (withT (run 0 0 5 1)).inside := by decide
theorem witness_UnmappedAccessIsReportedAndChangesNothing :
    Callback.irqChange ∉ State.reset.inside ∧ isUnmapped 0x01 = true ∧ isUnmapped 0x30 = true ∧ isUnmapped 0xFFFFFFFF = true := by decide
theorem witness_RegistersReadBackAsTheSummarySays : Callback.irqChange ∉ State.reset.inside ∧ State.reset.irqQuiet := by decide
theorem witness_ReadsHaveNoSideEffects : isRead (.rdUnmapped 0x04) = true ∧ Callback.irqChange ∉ State.reset.inside := by decide
theorem witness_RegisterOperationsAreDefinedInEveryState :
    unitOf (.wrCounter 5) = .timer ∧ Instr.wrCounter 5 ≠ .tick ∧ Callback.irqChange ∉ (withT (run 5 0 5 1)).inside ∧
      (withT (run 5 0 5 1)).irqQuiet := by decide
theorem witness_DisabledTickChangesNothing :
    Callback.irqChange ∉ State.reset.inside ∧ State.reset.timer.enabled = false := by decide
/-- Both ends of R142's condition, and the Disabled side of it. -/
theorem witness_TickIsRefusedExactlyOutsideTheDomain :
    Callback.irqChange ∉ (withT (run 5 0 5 1)).inside ∧ (withT (run 5 0 5 1)).irqQuiet ∧
    (let t := run 5 0 5 1; t.enabled = true ∧ t.limit.toNat ≤ t.value.toNat) ∧ (run 0 0 0 1).limit = 0 ∧
    (let t := run 4 0 5 1; t.limit ≠ 0 ∧ t.value.toNat < t.limit.toNat) ∧ { run 5 0 5 1 with enabled := false }.enabled = false := by
  decide
/-- A tick inside a group, and one that ends a group just below the last count. -/
theorem witness_TickCountsOncePerDividerTicks :
    Callback.irqChange ∉ (withT (run 4 2 5 4)).inside ∧
    (let t := run 4 2 5 4
     t.enabled = true ∧ t.limit ≠ 0 ∧ t.value.toNat < t.limit.toNat ∧ t.limitDue = false ∧ t.presc + 1 < t.divider) ∧
    (let t := run 3 3 5 4
     t.enabled = true ∧ t.limit ≠ 0 ∧ t.value.toNat < t.limit.toNat ∧ t.limitDue = false ∧ t.divider ≤ t.presc + 1) := by decide
theorem witness_LimitEventReloadsAndRaisesTheFlag :
    Callback.irqChange ∉ (withT (runIE 4 3 5 4)).inside ∧ (withT (runIE 4 3 5 4)).irqQuiet ∧
    (let t := runIE 4 3 5 4; t.limitDue = true ∧ t.updateDisable = false) ∧
    (let t := { runIE 4 3 5 4 with updateDisable := true }; t.limitDue = true ∧ t.updateDisable = true) := by decide
theorem witness_LimitEventWrapsAndStopsOneShot :
    Callback.irqChange ∉ (withT (run 0 0 1 1)).inside ∧ (withT (run 0 0 1 1)).irqQuiet ∧ (run 0 0 1 1).limitDue = true ∧
    { run 0 0 1 1 with mode := .oneShot }.limitDue = true := by decide
/-- The shortest period, with no tick before the event, and a period of several. -/
theorem witness_LimitEventComesAfterExactlyThePeriod :
    (Callback.irqChange ∉ (withT (run 0 0 1 1)).inside ∧ (withT (run 0 0 1 1)).irqQuiet) ∧
    ((run 0 0 1 1).Inv ∧ (run 0 0 1 1).enabled = true ∧ (run 0 0 1 1).InDomain) ∧
    ((run 2 1 5 4).Inv ∧ (run 2 1 5 4).enabled = true ∧ (run 2 1 5 4).InDomain ∧
      10 < ((run 2 1 5 4).limit.toNat - (run 2 1 5 4).value.toNat) * (run 2 1 5 4).divider - (run 2 1 5 4).presc) :=
  ⟨by decide, ⟨⟨by decide, by decide, by decide⟩, by decide, by decide, fun _ => by decide⟩,
    ⟨by decide, by decide, by decide⟩, by decide, ⟨by decide, fun _ => by decide⟩, by decide⟩
theorem witness_PeriodicEventsRecurEveryPeriod :
    (Callback.irqChange ∉ (withT (runIE 0 0 3 2)).inside ∧ (withT (runIE 0 0 3 2)).irqQuiet) ∧ (runIE 0 0 3 2).Inv ∧ (runIE 0 0 3 2).enabled = true ∧
    (runIE 0 0 3 2).mode = .periodic ∧ 1 ≤ (runIE 0 0 3 2).limit.toNat ∧
    (runIE 0 0 3 2).autoReloadValue = (runIE 0 0 3 2).limit ∧ (runIE 0 0 3 2).value = 0 ∧ (runIE 0 0 3 2).presc = 0 :=
  ⟨by decide, ⟨by decide, by decide, by decide⟩, rfl, rfl, by decide, rfl, rfl, rfl⟩
theorem witness_TicksStayInsideTheDomain :
    ∃ t, (withT (run 0 0 1 1)).timer.InDomain ∧ 1 ≤ (withT (run 0 0 1 1)).timer.autoReloadValue.toNat ∧
      exec .tick (withT (run 0 0 1 1)) = .next t :=
  ⟨_, ⟨by decide, fun _ => by decide⟩, by decide, rfl⟩
/-- 1/0/3 with preload on. -/
def preloaded : Timer := { run 1 0 3 1 with autoReloadPreloadEnable := true }

/-- Preload on, the pending limit written; a counting tick, a limit event suppressed by `updateDisable`, `updateDisable` cleared again and
two counting ticks; and then the event is due on the next tick. -/
theorem witness_PreloadedLimitWaitsForTheNaturalReload :
    ∃ u t, (withT preloaded).timer.autoReloadPreloadEnable = true ∧ (withT preloaded).sinkQuiet ∧
      exec (.wrAutoreload 2) (withT preloaded) = .next u ∧
      beforeNaturalReload [.tick, .wrControl1 3, .tick, .wrControl1 1, .tick, .tick] u = true ∧
      execAll [.tick, .wrControl1 3, .tick, .wrControl1 1, .tick, .tick] u = .next t ∧
      Callback.irqChange ∉ t.inside ∧ t.irqQuiet ∧ t.timer.limitDue = true ∧ t.timer.updateDisable = false :=
  ⟨_, _, rfl, by decide, rfl, by decide, rfl, by decide, by decide, by decide, rfl⟩
/-- By WR_AUTORELOAD with preload off, and by a limit event. -/
theorem witness_LimitIsWrittenByThreeThingsOnly :
    (∃ t, exec (.wrAutoreload 7) (withT (run 0 0 4 1)) = .next t ∧ t.timer.limit ≠ (withT (run 0 0 4 1)).timer.limit) ∧
    (∃ t, exec .tick (withT { run 3 0 4 1 with autoReloadValue := 2 }) = .next t ∧ t.timer.limit ≠ 4) :=
  ⟨⟨_, rfl, by decide⟩, ⟨_, rfl, by decide⟩⟩
/-- Set by a limit event and by a forced event; cleared by a Status write. -/
theorem witness_FlagIsSetAndClearedOnlyAsListed :
    (∃ t, exec .tick (withT (runIE 3 0 4 1)) = .next t ∧ (runIE 3 0 4 1).interruptFlag = false ∧ t.timer.interruptFlag = true) ∧
    (∃ t, exec (.wrEventgen 1) (withT (runIE 3 0 4 1)) = .next t ∧ t.timer.interruptFlag = true) ∧
    (∃ t, exec (.wrStatus 0) (withT { runIE 3 0 4 1 with interruptFlag := true }) = .next t ∧ t.timer.interruptFlag = false) :=
  ⟨⟨_, rfl, rfl, by decide⟩, ⟨_, rfl, by decide⟩, ⟨_, rfl, by decide⟩⟩
/-- Enabled by a Control1 write, disabled by a one-shot event, and the mode changed by a Control1 write. -/
theorem witness_EnableAndModeChangeOnlyAsListed :
    (∃ t, exec (.wrControl1 0x9) State.reset = .next t ∧ State.reset.timer.enabled = false ∧ t.timer.enabled = true ∧
      t.timer.mode ≠ State.reset.timer.mode) ∧
    (∃ t, exec .tick (withT { run 3 0 4 1 with mode := .oneShot }) = .next t ∧ t.timer.enabled = false) :=
  ⟨⟨_, rfl, rfl, by decide, by decide⟩, ⟨_, rfl, by decide⟩⟩
theorem witness_EveryIrqChangeIsNotifiedOnce :
    (∃ t, exec .tick (withT (runIE 3 0 4 1)) = .next t ∧ t.irq ≠ (withT (runIE 3 0 4 1)).irq) ∧
    (∃ t, unitOf .frameScan = .link ∧ (sixBytes 0x20).sinkQuiet ∧ exec .frameScan (sixBytes 0x20) = .next t) :=
  ⟨⟨_, rfl, by decide⟩, ⟨_, rfl, by decide, rfl⟩⟩
theorem witness_ResetTimerSetsEveryVariable :
    Callback.irqChange ∉ (withT (runIE 7 3 9 5)).inside ∧ (withT (runIE 7 3 9 5)).irqQuiet := by decide
theorem witness_ResetsBringBackThePowerOnState :
    (∃ t, exec .resetTimer (withT (runIE 7 3 9 5)) = .next t) ∧ (∃ t, exec .resetLink (withL [0xBC, 0xCF] none) = .next t) :=
  ⟨⟨_, rfl⟩, ⟨_, rfl⟩⟩
theorem witness_IngestBeforeTheLengthByteOnlyGrows :
    (Callback.onByte ∉ State.reset.inside ∧ State.reset.link.rxbuf.length ≤ 2 ∧ State.reset.link.expected = none) ∧
    (let s := withL [0xBC, 0xCF] none; Callback.onByte ∉ s.inside ∧ s.link.rxbuf.length ≤ 2 ∧ s.link.expected = none) := by decide
theorem witness_FourthByteLatchesTheExpectedSize :
    (let s := withL [0xBC, 0xCF, 0x20] none; Callback.onByte ∉ s.inside ∧ s.link.rxbuf.length = 3) ∧
    (let s := withL [0xBC, 0xCF, 0x20, 0x00] (some 6)
     Callback.onByte ∉ s.inside ∧ 4 ≤ s.link.rxbuf.length ∧ s.link.expected ≠ some (s.link.rxbuf.length + 1)) := by decide
theorem witness_CompletingByteEmitsTheReply :
    (let s := withL [0xBC, 0xCF, 0x20, 0x00, 0x01] (some 6)
     Callback.onByte ∉ s.inside ∧ s.sinkConnected = true ∧ s.sinkQuiet ∧ 4 ≤ s.link.rxbuf.length ∧
       s.link.expected = some (s.link.rxbuf.length + 1) ∧ s.link.rxbuf[2]? = some 0x20) ∧
    (let s := withL [0xBC, 0xCF, 0x21, 0x00, 0x01] (some 6)
     Callback.onByte ∉ s.inside ∧ s.sinkConnected = true ∧ s.sinkQuiet ∧ 4 ≤ s.link.rxbuf.length ∧
       s.link.expected = some (s.link.rxbuf.length + 1) ∧ s.link.rxbuf[2]? ≠ some 0x20) := by decide
theorem witness_ScanFrameGetsTheFixedReply :
    let s := sixBytes 0x20
    s.sinkConnected = true ∧ s.sinkQuiet ∧ s.link.expected = some s.link.rxbuf.length ∧ s.link.rxbuf[2]? = some 0x20 := by decide
theorem witness_OtherFramesAreEchoedVerbatim :
    let s := sixBytes 0x21
    s.sinkConnected = true ∧ s.sinkQuiet ∧ s.link.expected = some s.link.rxbuf.length ∧ s.link.rxbuf[2]? = some 0x21 ∧ (0x21 : Byte) ≠ 0x20 := by decide
theorem witness_ResetLinkEmptiesTheBuffer :
    Callback.onByte ∉ (sixBytes 0x21).inside ∧ Callback.onByte ∈ ({ State.reset with inside := [.onByte] } : State).inside := by decide
theorem witness_ChecksumsHaveTheirClosedForm :
    (255 ≤ 255 ∧ (List.replicate 255 (0xFF : Byte)).length = 255) ∧ ([] : List Byte).length ≤ 255 :=
  ⟨⟨Nat.le_refl _, List.length_replicate⟩, Nat.zero_le _⟩
/-- The shortest frame, proper prefixes included. -/
theorem witness_OneFrameMakesExactlyOneReply :
    Callback.onByte ∉ State.reset.inside ∧ State.reset.sinkConnected = true ∧ State.reset.sinkQuiet ∧
    State.reset.link = { rxbuf := [], expected := none } ∧
    splitFrame [0xBC, 0xCF, 0x20, 0x00, 0x01, 0x02] = some ([0xBC, 0xCF, 0x20, 0x00, 0x01, 0x02], []) ∧
    splitFrame [0xBC, 0xCF, 0x21, 0x00, 0x01, 0x02] = some ([0xBC, 0xCF, 0x21, 0x00, 0x01, 0x02], []) := by decide
theorem witness_ByteStreamIsAnsweredFrameByFrame :
    Callback.onByte ∉ State.reset.inside ∧ State.reset.sinkConnected = true ∧ State.reset.sinkQuiet ∧
    State.reset.link = { rxbuf := [], expected := none } := by
  decide
theorem witness_CompletingWithoutASinkIsRefused :
    (let s := { withL [0xBC, 0xCF, 0x20, 0x00, 0x01] (some 6) with sinkConnected := false }
     s.sinkConnected = false ∧ Callback.onByte ∉ s.inside ∧ 4 ≤ s.link.rxbuf.length ∧
       s.link.expected = some (s.link.rxbuf.length + 1)) ∧
    (let s := { sixBytes 0x20 with sinkConnected := false }
     s.sinkConnected = false ∧ s.link.expected = some s.link.rxbuf.length ∧ s.link.rxbuf[2]? = some 0x20) ∧
    (let s := { sixBytes 0x21 with sinkConnected := false }
     s.sinkConnected = false ∧ s.link.expected = some s.link.rxbuf.length ∧ s.link.rxbuf[2]? ≠ some 0x20) := by decide
theorem witness_HandlersWithoutTheirFrameAreRefused :
    State.reset.link.expected ≠ some State.reset.link.rxbuf.length ∧ (sixBytes 0x21).link.rxbuf[2]? ≠ some 0x20 ∧
    (sixBytes 0x20).link.rxbuf[2]? = some 0x20 := by decide
theorem reset_inv : State.reset.Inv := ⟨⟨by decide, by decide, by decide⟩, Link.inv_empty⟩
theorem witness_EveryStepKeepsTheInvariant : ∃ t, State.reset.Inv ∧ step State.reset = .next t := ⟨_, reset_inv, rfl⟩
/-- A step that runs a byte, from the reset state with that byte invoked. -/
theorem witness_BufferNeverExceeds260Bytes :
    ∃ t, ({ State.reset with inputs := [.byteIn 0xBC] } : State).Inv ∧
      step { State.reset with inputs := [.byteIn 0xBC] } = .next t ∧ t.link.rxbuf = [0xBC] :=
  ⟨_, reset_inv, rfl, rfl⟩
theorem witness_TimerAndLinkShareNoState :
    (unitOf .tick = .timer ∧ (withT (run 3 0 4 1)).irqQuiet ∧ ∃ t, exec .tick (withT (run 3 0 4 1)) = .next t) ∧
    (unitOf (.ingest 0x20) = .link ∧ State.reset.sinkQuiet ∧ ∃ t, exec (.ingest 0x20) State.reset = .next t) :=
  ⟨⟨rfl, rfl, _, rfl⟩, ⟨rfl, by decide, _, rfl⟩⟩
/-- For each clause: a re-entrant call; a notice whose consumer sends a byte, and a tick that notifies nothing; a completing byte whose
consumer reads a register; and a quiet call from inside the other unit's callback. -/
theorem witness_CallbacksMayOperateOnlyTheOtherUnit :
    (unitOf .rdCounter = .timer ∧ Callback.irqChange ∈ ({ State.reset with inside := [.irqChange] } : State).inside) ∧
    Callback.onByte ∈ ({ State.reset with inside := [.onByte] } : State).inside ∧
    (∃ t, unitOf .tick = .timer ∧
      exec .tick { noticing [.byteIn 0xBC] with irqCalls := [] :: (noticing [.byteIn 0xBC]).irqCalls.tail } = .next t ∧
      t.irq ≠ (noticing [.byteIn 0xBC]).irq) ∧
    (∃ t, exec .tick { withT (run 0 0 4 1) with irqCalls := [[]] } = .next t ∧ t.irq = (withT (run 0 0 4 1)).irq) ∧
    (let s := replying 0x21 [.busRead 4 0x24]
     Callback.onByte ∉ s.inside ∧ s.sinkConnected = true ∧ 4 ≤ s.link.rxbuf.length ∧ s.link.expected = some (s.link.rxbuf.length + 1)) ∧
    (let s := { State.reset with inside := [.onByte] }
     unitOf .rdCounter = .timer ∧ Callback.irqChange ∉ s.inside ∧ s.irqQuiet) ∧
    (let s := { State.reset with inside := [.irqChange] }
     unitOf .resetLink = .link ∧ Callback.onByte ∉ s.inside ∧ s.sinkQuiet) :=
  ⟨by decide, by decide, ⟨_, rfl, rfl, by decide⟩, ⟨_, rfl, by decide⟩, by decide, by decide, by decide⟩
theorem witness_OperationsKeepThePortsAndExtendTheTraces : ∃ t, exec .frameEcho (sixBytes 0x21) = .next t := ⟨_, rfl⟩
/-- Ones in the four plain fields are in R90's range. -/
theorem plain_ones_inRange :
    BankUnit.InRange timerBankPlain { stored := [((0x00, 1), 1), ((0x00, 2), 1), ((0x00, 7), 1), ((0x0C, 0), 1)], rest := run 2 1 5 4 } := by
  simp [BankUnit.InRange, timerBankPlain, timerBankOver, BankUnit.value, Stored.get, varBit, varWord, plainBit, tagField, statusField,
    eventgenField]

/-- TIMER's reset state as a unit with the four plain fields, and one in which all four are set. -/
theorem witness_BankOfTimerAgreesWithTheRegisterRules :
    (Callback.irqChange ∉ (withT (runIE 2 1 5 4)).inside ∧ (withT (runIE 2 1 5 4)).irqQuiet) ∧
    (∃ p, plainView p = State.reset.timer ∧ BankUnit.InRange timerBankPlain p) ∧
    (let t := { runIE 2 1 5 4 with updateDisable := true, updateRequestSource := true, autoReloadPreloadEnable := true }
     ∃ p, plainView p = (withT t).timer ∧ BankUnit.InRange timerBankPlain p) :=
  ⟨by decide, ⟨{ stored := [], rest := Timer.powerOn }, rfl, fun _ _ _ _ => Nat.pos_of_ne_zero (by simp)⟩,
    ⟨{ stored := [((0x00, 1), 1), ((0x00, 2), 1), ((0x00, 7), 1), ((0x0C, 0), 1)], rest := run 2 1 5 4 }, rfl, plain_ones_inRange⟩⟩
/-- The narrowest field at the top of a register, and a whole register. -/
theorem witness_FieldReadsBackAsItsAccessModeSays :
    (let f : BankField Unit := { lo := 31, width := 1, mode := .writeZeroToClear, reset := 0, writeHook := none, readHook := none }
     let u : BankUnit Unit := { stored := [((0x10, 31), 1)], rest := () }
     f.wf = true ∧ f.writeHook.isNone = true ∧ f.readHook.isNone = true ∧ (u.value (0x10, f.lo)).toNat < 2 ^ f.width) ∧
    (let f : BankField Unit := { lo := 0, width := 32, mode := .readWrite, reset := 0, writeHook := none, readHook := none }
     let u : BankUnit Unit := { stored := [((0x10, 0), 0xFFFFFFFF)], rest := () }
     f.wf = true ∧ f.writeHook.isNone = true ∧ f.readHook.isNone = true ∧ (u.value (0x10, f.lo)).toNat < 2 ^ f.width) ∧
    (field4 .readOnly).wf = true ∧ (field4 .writeOneToClear).wf = true ∧ ((holding 0xF).value (0x10, 4)).toNat < 2 ^ 4 := by decide
/-- A register of several fields is there and one is not; one whose fields have no write hook is there; and a layout whose hooks keep
R90's range, with a unit in it. -/
theorem witness_WriteHooksRunOnEveryWrite :
    (∃ r, counting.lookup 0x10 = some r ∧ fieldsWf r.fields = true) ∧
    (∃ r, counting.lookup 0x20 = some r ∧ fieldsWf r.fields = true ∧ (∀ f ∈ r.fields, f.writeHook = none) ∧ r.postWrite = none) ∧
    (bankWf timerBankPlain = true ∧ hooksKeepRange timerBankPlain ∧
      BankUnit.InRange timerBankPlain { stored := [], rest := Timer.powerOn } ∧
      (bankRead timerBankPlain 0x24 { stored := [], rest := Timer.powerOn }).toOption.isSome = true ∧
      (bankWrite timerBankPlain 0x24 7 { stored := [], rest := Timer.powerOn }).toOption.isSome = true) ∧
    (counting.lookup 0x14).isNone = true :=
  ⟨⟨_, rfl, by decide⟩, ⟨_, rfl, by decide, by simp, rfl⟩,
    ⟨timerBankPlain_wf, timerBankPlain_hooksKeepRange, fun _ _ _ _ => Nat.pos_of_ne_zero (by simp), rfl, rfl⟩, by decide⟩
/-- A well-formed bank with a field that does not hold its reset value, and a place that is no field of it. -/
theorem witness_BankResetRestoresDeclaredValues :
    bankWf counting = true ∧ countUnit.value (0x10, 4) = 5 ∧ (bankReset counting countUnit).value (0x10, 4) = 6 ∧
    ∀ e ∈ counting, ∀ f ∈ e.2.fields, (e.1, f.lo) ≠ ((0x10 : Word), 5) := by
  refine ⟨by decide, by decide, by decide, ?_⟩
  simp [counting]

end Sys2Proof.Tests
end

section
/-! PROOFS. TIMER's registers as the bus sees them: the Status write, and the Counter and AutoReload reads. Nothing here runs an
operation afresh: each outcome is `timerAfter` and `timerResult` of `exec_timer_quiet`. -/

namespace Sys2Proof.Machine

/-- TIMER's operations touch nothing of LINK's, whatever a quiet consumer of the line is told (R2). -/
theorem linkSideKept_notified_answer (s : State) (u : Timer) (r : Result) : linkSideKept s ((s.notified u).answer r) :=
  ⟨State.notified_link s u, State.notified_sent s u⟩

/-- A TIMER operation from outside a notification and with a quiet consumer: it completes with its outcome, with `timerAfter`, and
with LINK's side as it was. -/
theorem exec_timer_completes {i : Instr} {s : State} (unit : unitOf i = .timer) (defined : i = .tick → s.timer.tick ≠ none)
    (free : Callback.irqChange ∉ s.inside) (quiet : (timerAfter s.timer i).irq ≠ s.timer.irq → s.irqQuiet) :
    ∃ t, exec i s = .next t ∧ t.result = some (timerResult s.timer i) ∧ t.timer = timerAfter s.timer i ∧ linkSideKept s t :=
  ⟨_, exec_timer_quiet unit defined free quiet, State.answer_result _ _, State.notified_timer _ _, linkSideKept_notified_answer _ _ _⟩

/-- A TIMER operation, no tick, that leaves TIMER's variables as they are, a register read above all: the line keeps its level, so no
premise on its consumer is needed. -/
theorem exec_timer_reads {i : Instr} {s : State} (unit : unitOf i = .timer) (notTick : i ≠ .tick)
    (same : timerAfter s.timer i = s.timer) (free : Callback.irqChange ∉ s.inside) :
    ∃ t, exec i s = .next t ∧ t.result = some (timerResult s.timer i) ∧ t.timer = s.timer ∧ linkSideKept s t := by
  have lineKept : (timerAfter s.timer i).irq = s.timer.irq := by rw [same]
  obtain ⟨t, run, result, timer, link⟩ :=
    exec_timer_completes unit (fun tick => absurd tick notTick) free (fun changed => absurd lineKept changed)
  exact ⟨t, run, result, timer.trans same, link⟩

/-- Settles O10: a Status write leaves `flag && bit 0` of the word (`Timer.writeStatus_eq`), and the line is that flag gated by the
enable. -/
theorem writeStatusClearsTheFlagByZeroOnly : Obligations.WriteStatusClearsTheFlagByZeroOnly := by
  intro s w free quiet
  obtain ⟨t, run, result, timer, link⟩ := exec_timer_completes (i := .wrStatus w) rfl nofun free (fun _ => quiet)
  have flag : t.timer = { s.timer with interruptFlag := s.timer.interruptFlag && w.getLsbD 0 } :=
    timer.trans (Timer.writeStatus_eq s.timer w)
  have line : t.irq = (s.timer.interruptFlag && w.getLsbD 0 && s.timer.interruptEnable) := by rw [State.irq_eq, flag, Timer.irq]
  exact ⟨t, run, result, link, flag, line⟩

/-- Settles O14: offset 0x24 decodes to the Counter read, which returns the counter as it stands. -/
theorem readCounterReturnsTheCounter : Obligations.ReadCounterReturnsTheCounter :=
  ⟨by decide, fun _ free => exec_timer_reads (i := .rdCounter) rfl nofun rfl free⟩

/-- Settles O17: the AutoReload read returns the pending value, which no premise ties to the active limit. -/
theorem readAutoreloadReturnsThePendingValue : Obligations.ReadAutoreloadReturnsThePendingValue :=
  fun _ free => exec_timer_reads (i := .rdAutoreload) rfl nofun rfl free

end Sys2Proof.Machine
end

section
/-! PROOFS. TIMER's counting: the tick on which the limit event is due (R143, R144). -/

namespace Sys2Proof.Machine

theorem Timer.limitEvent_limit (t : Timer) : t.limitEvent.limit = if t.updateDisable then t.limit else t.autoReloadValue := by
  rw [Timer.limitEvent_eq]

theorem Timer.limitEvent_interruptFlag (t : Timer) :
    t.limitEvent.interruptFlag = (t.interruptFlag || (!t.updateDisable && t.interruptEnable)) := by
  rw [Timer.limitEvent_eq]

theorem Timer.limitEvent_interruptEnable (t : Timer) : t.limitEvent.interruptEnable = t.interruptEnable := by
  rw [Timer.limitEvent_eq]

/-- A suppressed limit event leaves the line, flag AND enable, as it was (R144). -/
theorem Timer.limitEvent_irq_suppressed {t : Timer} (suppressed : t.updateDisable = true) : t.limitEvent.irq = t.irq := by
  simp [Timer.irq, Timer.limitEvent_interruptFlag, Timer.limitEvent_interruptEnable, suppressed]

/-- A tick on which the limit event is due ends the group of ticks and makes the event (R141). -/
theorem Timer.tick_limitDue {t : Timer} (due : t.limitDue = true) : t.tick = some (Timer.limitEvent { t with presc := 0 }) := by
  obtain ⟨enabled, groupEnds, reached⟩ := (Timer.limitDue_iff t).1 due
  rw [Timer.tick_limit enabled reached groupEnds, Timer.limitEvent_eq]
  simp [enabled]

/-- Settles O26: the tick leaves TIMER as the limit event does (`Timer.tick_limitDue`), and the line is flag AND enable there. -/
theorem limitEventReloadsAndRaisesTheFlag : Obligations.LimitEventReloadsAndRaisesTheFlag := by
  intro s free quiet due
  refine ⟨_, exec_tick_some free (fun _ => quiet) (Timer.tick_limitDue due), fun suppressed => ?_, fun unsuppressed => ?_⟩
  · rw [State.irq_eq, State.answer_timer, State.notified_timer]
    exact ⟨by simp [Timer.limitEvent_limit, suppressed], by simp [Timer.limitEvent_interruptFlag, suppressed],
      Timer.limitEvent_irq_suppressed suppressed⟩
  · rw [State.irq_eq, State.answer_timer, State.notified_timer]
    exact ⟨by simp [Timer.limitEvent_limit, unsuppressed], by simp [Timer.limitEvent_interruptFlag, unsuppressed], rfl⟩

end Sys2Proof.Machine
end

section
/-! PROOFS. The framed link: what INGEST leaves of LINK on a byte that completes nothing (R162, R163), and the two handlers of a
completed frame (R167, R168). -/

namespace Sys2Proof.Machine

/-- INGEST of a byte that completes nothing: LINK is `Link.accept`'s, nothing is emitted, and TIMER's side is as it was. -/
theorem exec_ingest_appends {s : State} {b : Byte} {l : Link} (free : Callback.onByte ∉ s.inside) (accept : s.link.accept b = l)
    (incomplete : l.expected ≠ some l.rxbuf.length) :
    ∃ t, exec (.ingest b) s = .next t ∧ t.result = some .done ∧ t.link = l ∧ t.sent = s.sent ∧ timerSideKept s t := by
  subst accept
  exact ⟨_, exec_ingest_open free incomplete, rfl, rfl, rfl, rfl, rfl, rfl⟩

/-- Settles O39: the append latches nothing at these lengths (`Link.accept_other`), and an unbounded size is never reached. -/
theorem ingestBeforeTheLengthByteOnlyGrows : Obligations.IngestBeforeTheLengthByteOnlyGrows := by
  intro s b free short unbounded
  have accept : s.link.accept b = { rxbuf := s.link.rxbuf ++ [b], expected := none } := by
    rw [Link.accept_other (by omega), unbounded]
  obtain ⟨t, run, result, link, sent, timer⟩ := exec_ingest_appends free accept nofun
  exact ⟨t, run, result, by rw [link], by rw [link], sent, timer⟩

/-- Settles O40: the 4th byte latches `L + 6` (`Link.accept_fourth`), which four bytes cannot reach; a later byte keeps the latch
(`Link.accept_other`), which by the premise the longer buffer does not reach. -/
theorem fourthByteLatchesTheExpectedSize : Obligations.FourthByteLatchesTheExpectedSize := by
  refine fun s b free => ⟨fun three => ?_, fun long notLast => ?_⟩
  · have incomplete : some (b.toNat + 6) ≠ some (s.link.rxbuf ++ [b]).length := by simp [three]
    obtain ⟨t, run, result, link, sent, timer⟩ := exec_ingest_appends free (Link.accept_fourth three b) incomplete
    exact ⟨t, run, result, by rw [link], by rw [link], sent, timer⟩
  · have incomplete : s.link.expected ≠ some (s.link.rxbuf ++ [b]).length := by simpa using notLast
    obtain ⟨t, run, result, link, sent, timer⟩ := exec_ingest_appends free (Link.accept_other (by omega) b) incomplete
    exact ⟨t, run, result, by rw [link], by rw [link], sent, timer⟩

/-- The end of a completed frame: the reply joins the bytes sent, LINK is empty, and TIMER's side is as it was. -/
theorem emitted_cleared_kept (s : State) (out : List Byte) :
    let t := ((s.emitted out).withLink { rxbuf := [], expected := none }).answer .done
    t.sent = s.sent ++ out ∧ t.link.rxbuf = [] ∧ timerSideKept s t :=
  ⟨State.emitted_sent s out, rfl, rfl, State.emitted_irqNotices s out, State.emitted_advisories s out⟩

/-- Settles O42: the frame is FRAME_SCAN's operand (`Link.scanReady_iff`), and the reply is the constant `scanReply_eq`. -/
theorem scanFrameGetsTheFixedReply : Obligations.ScanFrameGetsTheFixedReply := by
  intro s connected quiet complete command
  have ready : s.link.scanReady = true := (Link.scanReady_iff _).2 ⟨complete, (Link.command_eq_scan _).2 command⟩
  rw [← scanReply_eq]
  exact ⟨_, exec_frameScan_ready ready connected quiet, emitted_cleared_kept s scanReply⟩

/-- Settles O43: the frame is FRAME_ECHO's operand (`Link.echoReady_iff`), and the reply is the buffer. -/
theorem otherFramesAreEchoedVerbatim : Obligations.OtherFramesAreEchoedVerbatim := by
  intro s c connected quiet complete command other
  have notScan : s.link.command ≠ 0x20 := fun scan =>
    other (Option.some.inj (command.symm.trans ((Link.command_eq_scan _).1 scan)))
  have ready : s.link.echoReady = true := (Link.echoReady_iff _).2 ⟨complete, notScan⟩
  exact ⟨_, exec_frameEcho_ready ready connected quiet, emitted_cleared_kept s s.link.rxbuf⟩

end Sys2Proof.Machine
end

section
/-! PROOFS. The selectors of operations: the decoder and the encoder undo each other (30_encoding.md), and what a step runs (R5, R50). -/

namespace Sys2Proof.Machine

/-- The selector of a mapped register's read is a four-byte read of its offset. -/
theorem encode_readInstr (r : Reg) : encode (readInstr r) = .port (.busRead 4 (offsetOf r)) := by cases r <;> rfl

theorem encode_writeInstr (w : Word) (r : Reg) : encode (writeInstr w r) = .port (.busWrite 4 (offsetOf r) w) := by cases r <;> rfl

theorem readInstr_wf (r : Reg) : (readInstr r).wf = true := by cases r <;> rfl

theorem writeInstr_wf (w : Word) (r : Reg) : (writeInstr w r).wf = true := by cases r <;> rfl

theorem decodeRead_mapped {off : Word} {r : Reg} (h : regAt off = some r) : decodeRead off = readInstr r := by rw [decodeRead, h]

theorem decodeWrite_mapped {off : Word} {r : Reg} (h : regAt off = some r) (w : Word) : decodeWrite off w = writeInstr w r := by
  rw [decodeWrite, h]

theorem decodeRead_unmapped {off : Word} (h : isUnmapped off = true) : decodeRead off = .rdUnmapped off := by
  rw [decodeRead, (isUnmapped_iff off).1 h]

theorem decodeWrite_unmapped {off : Word} (h : isUnmapped off = true) (w : Word) : decodeWrite off w = .wrUnmapped off w := by
  rw [decodeWrite, (isUnmapped_iff off).1 h]

/-- A read at any offset decodes to a well-formed operation, whose selector is that read again: at a mapped offset by `regAt_some`, at
any other because the operation carries the offset (R41, R44). -/
theorem decodeRead_wf_encode (off : Word) : (decodeRead off).wf = true ∧ encode (decodeRead off) = .port (.busRead 4 off) := by
  cases h : regAt off with
  | some r => rw [decodeRead_mapped h, encode_readInstr, ← regAt_some h]; exact ⟨readInstr_wf r, rfl⟩
  | none => rw [decodeRead_unmapped ((isUnmapped_iff off).2 h)]; exact ⟨(isUnmapped_iff off).2 h, rfl⟩

/-- The same of a write, the word included. -/
theorem decodeWrite_wf_encode (off w : Word) :
    (decodeWrite off w).wf = true ∧ encode (decodeWrite off w) = .port (.busWrite 4 off w) := by
  cases h : regAt off with
  | some r => rw [decodeWrite_mapped h, encode_writeInstr, ← regAt_some h]; exact ⟨writeInstr_wf w r, rfl⟩
  | none => rw [decodeWrite_unmapped ((isUnmapped_iff off).2 h)]; exact ⟨(isUnmapped_iff off).2 h, rfl⟩

/-- A well-formed invocation at a port decodes to a well-formed operation, whose selector it is. -/
theorem decode_port_wf {p : PortInput} (wf : p.wf = true) : ∃ i, decode (.port p) = .ok i ∧ i.wf = true ∧ encode i = .port p := by
  cases p with
  | busRead n off =>
    obtain rfl : n = 4 := by simpa [PortInput.wf] using wf
    exact ⟨_, rfl, decodeRead_wf_encode off⟩
  | busWrite n off w =>
    obtain rfl : n = 4 := by simpa [PortInput.wf] using wf
    exact ⟨_, rfl, decodeWrite_wf_encode off w⟩
  | tickSignal => exact ⟨.tick, rfl, rfl, rfl⟩
  | timerResetSignal => exact ⟨.resetTimer, rfl, rfl, rfl⟩
  | byteIn b => exact ⟨.ingest b, rfl, rfl, rfl⟩
  | linkResetSignal => exact ⟨.resetLink, rfl, rfl, rfl⟩

theorem encode_wf (i : Instr) : (encode i).wf = true := by cases i <;> rfl

/-- A well-formed operation is read back from its selector; only the two unmapped rows need the check on their offset (R41, R44). -/
theorem decode_encode {i : Instr} (wf : i.wf = true) : decode (encode i) = .ok i := by
  cases i
  case rdUnmapped off => exact congrArg Except.ok (decodeRead_unmapped wf)
  case wrUnmapped off w => exact congrArg Except.ok (decodeWrite_unmapped wf w)
  all_goals rfl

/-- Settles O1: operations by `decode_encode`, invocations at a port by `decode_port_wf`, command bytes by `decodeCommand_eq`. -/
theorem decodeAndEncodeAgree : Obligations.DecodeAndEncodeAgree :=
  ⟨fun i wf => ⟨encode_wf i, decode_encode wf⟩, fun _ wf => decode_port_wf wf, fun c => congrArg Except.ok (decodeCommand_eq c)⟩

/-- Settles O2, selector by selector. -/
theorem writtenOutSelectorsDecode : Obligations.WrittenOutSelectorsDecode := by
  refine ⟨?_, ?_, ?_, ?_, ?_, ?_, ?_, ?_, ?_, ?_, ?_, ?_, ?_⟩ <;> rfl

theorem fetch_complete {s : State} (h : s.link.complete = true) :
    fetch s = .run (decodeCommand s.link.command) (s.within []) := if_pos h

theorem fetch_idle {s : State} (h : s.link.complete = false) (none : s.inputs = []) : fetch s = .idle := by simp [fetch, h, none]

theorem fetch_input {s : State} {p : PortInput} {rest : List PortInput} {i : Instr} (h : s.link.complete = false)
    (next : s.inputs = p :: rest) (d : decode (.port p) = .ok i) : fetch s = .run i { s with inputs := rest, inside := [] } := by
  simp [fetch, h, next, d]

theorem fetch_rejected {s : State} {p : PortInput} {rest : List PortInput} {r : Reject} (h : s.link.complete = false)
    (next : s.inputs = p :: rest) (d : decode (.port p) = .error r) : fetch s = .rejected (refusalOf r) := by
  simp [fetch, h, next, d]

/-- Settles O3, one clause per line of `fetch`. -/
theorem stepRunsTheDecodedOperation : Obligations.StepRunsTheDecodedOperation := by
  refine ⟨fun s p rest i standing next d => ?_, fun s complete => ?_, fun s standing none => ?_⟩
  · rw [step, fetch_input standing next d]
  · rw [step, fetch_complete complete, decodeCommand_eq]; rfl
  · rw [step, fetch_idle standing none]

/-- Settles O4: the decoder rejects the width, and the step answers with the rejection (`fetch_rejected`). -/
theorem otherAccessWidthsAreRefused : Obligations.OtherAccessWidthsAreRefused := by
  intro s n off w rest width standing
  have read : decode (.port (.busRead n off)) = .error (.accessWidth n) := if_neg width
  have write : decode (.port (.busWrite n off w)) = .error (.accessWidth n) := if_neg width
  refine ⟨read, write, fun next => ?_, fun next => ?_⟩
  · rw [step, fetch_rejected standing next read]; rfl
  · rw [step, fetch_rejected standing next write]; rfl

end Sys2Proof.Machine
end

section
/-! PROOFS. What holds of every step and every operation, whatever the consumers call: the invariant (R12, R13, R27), the bounds it
gives on LINK's buffer (R26), and the ports' record (R28, R50, R52). -/

namespace Sys2Proof.Machine

/-- Everything a step can do when it answers a next state (R5, R50): nothing, or one operation, from outside every callback and with
both units as they stand. -/
theorem step_cases {s t : State} (h : step s = .next t) :
    t = s ∨ ∃ i s₁, s₁.inside = [] ∧ s₁.timer = s.timer ∧ s₁.link = s.link ∧ exec i s₁ = .next t := by
  unfold step at h
  cases f : fetch s with
  | idle => rw [f] at h; cases h; exact .inl rfl
  | rejected r => rw [f] at h; cases h
  | run i s₁ =>
    rw [f] at h
    refine .inr ⟨i, s₁, ?_⟩
    unfold fetch at f
    split at f
    · cases f; exact ⟨rfl, rfl, rfl, h⟩
    · split at f
      · cases f
      · split at f <;> cases f
        exact ⟨rfl, rfl, rfl, h⟩

/-- What every operation keeps that no callback of LINK has invoked, whatever its consumers call. -/
theorem exec_kept {i : Instr} {s t : State} (free : Callback.onByte ∉ s.inside) (h : exec i s = .next t) : Kept s t := by
  cases u : unitOf i with
  | timer => exact (exec_timer u h).1
  | link => exact (exec_link u free h).1

theorem step_keeps_inv {s t : State} (inv : s.Inv) (h : step s = .next t) : t.Inv := by
  obtain rfl | ⟨i, s₁, outside, timer, link, run⟩ := step_cases h
  · exact inv
  · have kept := exec_kept (by simp [outside]) run
    exact ⟨kept.timerInv (timer ▸ inv.1), kept.linkInv (link ▸ inv.2)⟩

/-- Between operations LINK holds at most 260 bytes, and an expected size is one of a frame (R26, R27). -/
theorem Link.inv_bounds {l : Link} (inv : l.Inv) : l.rxbuf.length ≤ 260 ∧ ∀ n, l.expected = some n → 6 ≤ n ∧ n ≤ 261 := by
  obtain ⟨short, long⟩ := inv
  by_cases few : l.rxbuf.length ≤ 3
  · exact ⟨by omega, fun n hn => by rw [short.1 few] at hn; cases hn⟩
  · obtain ⟨b, _, latched, below⟩ := long (by omega)
    have byte := b.isLt
    refine ⟨by omega, fun n hn => ?_⟩
    obtain rfl : b.toNat + 6 = n := Option.some.inj (latched.symm.trans hn)
    omega

/-- Settles O51: TIMER's phase below its divider by computation, and LINK empty. -/
theorem invariantHoldsAtReset : Obligations.InvariantHoldsAtReset := ⟨⟨by decide, by decide, by decide⟩, Link.inv_empty⟩

/-- Settles O52: the operation a step runs keeps each unit's invariant, its consumers' calls included (`exec_kept`). -/
theorem everyStepKeepsTheInvariant : Obligations.EveryStepKeepsTheInvariant := fun _ _ inv h => step_keeps_inv inv h

/-- Settles O53: the bounds follow from the invariant, which the step keeps. -/
theorem bufferNeverExceeds260Bytes : Obligations.BufferNeverExceeds260Bytes := fun _ _ inv h => Link.inv_bounds (step_keeps_inv inv h).2

/-- Settles O56: `exec_ports` says it of the whole record, and each view of the record is extended where the record is. -/
theorem operationsKeepThePortsAndExtendTheTraces : Obligations.OperationsKeepThePortsAndExtendTheTraces := by
  intro i s t h
  obtain ⟨⟨inputs, inside, sink, onByteCalls, irqCalls, outputs, advisories⟩, result⟩ := exec_ports h
  exact ⟨⟨inputs, inside, sink, onByteCalls, irqCalls⟩, outputs, outputs.filterMap _, outputs.filterMap _, advisories, result⟩

end Sys2Proof.Machine
end

section
/-! PROOFS. TIMER's registers and its reset, one access each: what the word read says of the variables, and what a write leaves (R110 to
R123, R181, R210). Every outcome is `timerAfter` and `timerResult` of `exec_timer_quiet`; what is shown here is what those are. -/

namespace Sys2Proof.Machine

/-! ### The three ways a register operation completes -/

/-- A TIMER operation, no refused tick, whose notice, if any, goes to a consumer that calls nothing: it also signals no advisory. -/
theorem exec_timer_effect {i : Instr} {s : State} (unit : unitOf i = .timer) (defined : i = .tick → s.timer.tick ≠ none)
    (free : Callback.irqChange ∉ s.inside) (quiet : (timerAfter s.timer i).irq ≠ s.timer.irq → s.irqQuiet) :
    ∃ t, exec i s = .next t ∧ t.result = some (timerResult s.timer i) ∧ linkSideKept s t ∧ t.advisories = s.advisories ∧
      t.timer = timerAfter s.timer i :=
  ⟨_, exec_timer_quiet unit defined free quiet, rfl, linkSideKept_notified_answer _ _ _, State.notified_advisories _ _,
    State.notified_timer _ _⟩

/-- One that leaves the level of the line as it was notifies nobody, whoever listens. -/
theorem exec_timer_keepsLine {i : Instr} {s : State} (unit : unitOf i = .timer) (defined : i = .tick → s.timer.tick ≠ none)
    (free : Callback.irqChange ∉ s.inside) (line : (timerAfter s.timer i).irq = s.timer.irq) :
    ∃ t, exec i s = .next t ∧ t.result = some (timerResult s.timer i) ∧ linkSideKept s t ∧ t.irqNotices = s.irqNotices ∧
      t.advisories = s.advisories ∧ t.timer = timerAfter s.timer i :=
  ⟨_, exec_timer_same unit defined free line, rfl, ⟨rfl, rfl⟩, rfl, rfl, rfl⟩

/-- One that leaves TIMER's variables as they were changes nothing but the outcome recorded. -/
theorem exec_timer_unchanged {i : Instr} {s : State} (unit : unitOf i = .timer) (defined : i = .tick → s.timer.tick ≠ none)
    (free : Callback.irqChange ∉ s.inside) (same : timerAfter s.timer i = s.timer) :
    exec i s = .next (s.answer (timerResult s.timer i)) := by
  have run := exec_timer_same unit defined free (congrArg Timer.irq same)
  rwa [same] at run

/-! ### The bits of a read word (R63) -/

@[simp] theorem modeOfBit_bit (b : Bool) : (modeOfBit b).bit = b := by cases b <;> rfl

theorem Mode.bit_eq (m : Mode) : m.bit = decide (m = .oneShot) := by cases m <;> rfl

/-- Bit `j` of Control1 (R110). -/
theorem Timer.readControl1_getLsbD (t : Timer) (j : Nat) :
    t.readControl1.getLsbD j =
      (t.enabled && decide (j = 0) || t.updateDisable && decide (j = 1) || t.updateRequestSource && decide (j = 2) ||
        t.mode.bit && decide (j = 3) || t.autoReloadPreloadEnable && decide (j = 7)) := by
  simp [Timer.readControl1, fieldBit_getLsbD]

/-- A register whose only bit is bit 0: the mask keeps that bit of a written word (R112, R114). -/
theorem fieldBit_zero_getLsbD (w : Word) : fieldBit (w.getLsbD 0) 0 = w &&& 1 := by
  refine BitVec.eq_of_getLsbD_eq fun j _ => ?_
  rw [fieldBit_getLsbD _ (by decide), BitVec.getLsbD_and, show (1 : Word) = 1#32 from rfl, BitVec.getLsbD_one]
  by_cases h : j = 0 <;> simp [h]

/-- Control1 keeps of a written word the five bits it has fields for (R111, R124). -/
theorem Timer.readControl1_writeControl1 (t : Timer) (w : Word) : (t.writeControl1 w).readControl1 = w &&& 0x8F := by
  have mask : ∀ j < 32, (0x8F : Word).getLsbD j = (decide (j = 0) || decide (j = 1) || decide (j = 2) || decide (j = 3) || decide (j = 7)) := by
    decide
  refine BitVec.eq_of_getLsbD_eq fun j hj => ?_
  rw [BitVec.getLsbD_and, mask j hj, Timer.readControl1_getLsbD]
  simp only [Timer.writeControl1, modeOfBit_bit, slice1]
  by_cases h : j = 0 ∨ j = 1 ∨ j = 2 ∨ j = 3 ∨ j = 7
  · rcases h with rfl | rfl | rfl | rfl | rfl <;> simp
  · simp only [not_or] at h
    simp [h]

/-- The divider read back is the word written, also for the largest (R120, R121). -/
theorem Timer.readPrescaler_writePrescaler (t : Timer) (w : Word) : (t.writePrescaler w).readPrescaler = w := by
  simp [Timer.readPrescaler, Timer.writePrescaler]

/-- Inside the divider's range the Prescaler reads one less, without wrap (R120). -/
theorem Timer.readPrescaler_toNat {t : Timer} (one : 1 ≤ t.divider) (top : t.divider ≤ 2 ^ 32) :
    t.readPrescaler.toNat + 1 = t.divider := by
  simp only [Timer.readPrescaler, BitVec.toNat_ofNat]
  omega

/-! ### The registers -/

/-- Settles O6: the word's bits are `Timer.readControl1_getLsbD`. -/
theorem readControl1ReturnsTheFiveFields : Obligations.ReadControl1ReturnsTheFiveFields := by
  intro s free
  obtain ⟨t, run, result, timer, link⟩ := exec_timer_reads (i := .rdControl1) rfl nofun rfl free
  refine ⟨t, _, run, result, timer, link, ?_⟩
  simp only [Timer.readControl1_getLsbD, Mode.bit_eq]
  refine ⟨by simp, by simp, by simp, by simp, by simp, fun j h0 h1 h2 h3 h7 => by simp [h0, h1, h2, h3, h7]⟩

/-- Settles O7: the line is a function of flag and enable, and neither is a field of Control1. -/
theorem writeControl1StoresTheFiveFields : Obligations.WriteControl1StoresTheFiveFields :=
  fun _ w free => exec_timer_keepsLine (i := .wrControl1 w) rfl nofun free rfl

/-- Settles O8: the word read has the enable as its only bit, and the line after a write is flag AND the bit written. -/
theorem dierHoldsTheInterruptEnable : Obligations.DierHoldsTheInterruptEnable := by
  intro s w free
  constructor
  · obtain ⟨t, run, result, timer, link⟩ := exec_timer_reads (i := .rdDier) rfl nofun rfl free
    refine ⟨t, _, run, result, timer, link, ?_⟩
    simp only [Timer.readDier, fieldBit_getLsbD _ (show 0 < 32 by decide)]
    exact ⟨by simp, fun j h => by simp [h]⟩
  · intro quiet
    obtain ⟨t, run, result, link, advisories, timer⟩ := exec_timer_effect (i := .wrDier w) rfl nofun free (fun _ => quiet)
    exact ⟨t, run, result, link, advisories, timer, by rw [State.irq_eq, timer]; rfl⟩

/-- Settles O9: the word read has the flag as its only bit, and the read leaves TIMER alone. -/
theorem readStatusReturnsTheFlagAndKeepsIt : Obligations.ReadStatusReturnsTheFlagAndKeepsIt := by
  intro s free
  obtain ⟨t, run, result, timer, link⟩ := exec_timer_reads (i := .rdStatus) rfl nofun rfl free
  refine ⟨t, _, run, result, timer, link, ?_⟩
  simp only [Timer.readStatus, fieldBit_getLsbD _ (show 0 < 32 by decide)]
  exact ⟨by simp, fun j h => by simp [h]⟩

/-- Settles O11: a write with bit 0 clear leaves TIMER's variables as they are (`Timer.writeEventgen_eq`). -/
theorem eventgenReadsZeroAndIgnoresZero : Obligations.EventgenReadsZeroAndIgnoresZero := by
  refine fun s w free => ⟨exec_timer_reads (i := .rdEventgen) rfl nofun rfl free, fun clear => ?_⟩
  have same : timerAfter s.timer (.wrEventgen w) = s.timer := by
    rw [timerAfter, Timer.writeEventgen_eq, clear]; rfl
  exact ⟨_, exec_timer_unchanged rfl nofun free same, rfl, ⟨rfl, rfl⟩, ⟨rfl, rfl, rfl⟩⟩

/-- Settles O12: a write with bit 0 set is the forced event with Ascending (`Timer.forcedEvent_ascending`). -/
theorem forcedEventClearsTheCounter : Obligations.ForcedEventClearsTheCounter := by
  intro s w free quiet set
  obtain ⟨t, run, result, link, advisories, timer⟩ := exec_timer_effect (i := .wrEventgen w) rfl nofun free (fun _ => quiet)
  have event : s.timer.writeEventgen w = s.timer.forcedEvent .ascending := if_pos set
  exact ⟨t, run, result, link, advisories, timer.trans (congrArg Prod.fst (event.trans (Timer.forcedEvent_ascending s.timer)))⟩

/-- Settles O13: the branches of the forced event in their order. -/
theorem forcedEventSkipsAnotherDirection : Obligations.ForcedEventSkipsAnotherDirection := by
  refine fun t d => ⟨fun suppressed => if_pos suppressed, fun unsuppressed other => ?_, ?_, rfl⟩
  · simp [Timer.forcedEvent, unsuppressed, other]
  · rw [Timer.forcedEvent_ascending]

/-- Settles O15: neither flag nor enable changes, so the line does not. -/
theorem writeCounterStoresTheWord : Obligations.WriteCounterStoresTheWord :=
  fun _ w free => exec_timer_keepsLine (i := .wrCounter w) rfl nofun free rfl

/-- Settles O16: the write stores the successor as a number, and in the range of the divider the read is its predecessor. -/
theorem prescalerIsStoredPlusOneAndReadsBack : Obligations.PrescalerIsStoredPlusOneAndReadsBack := by
  refine fun s w free => ⟨exec_timer_keepsLine (i := .wrPrescaler w) rfl nofun free rfl, fun one top => ?_⟩
  obtain ⟨t, run, result, timer, link⟩ := exec_timer_reads (i := .rdPrescaler) rfl nofun rfl free
  exact ⟨t, _, run, result, Timer.readPrescaler_toNat one top, timer, link⟩

/-- Settles O18: `Timer.writeAutoreload`, which leaves flag and enable, and so the line, alone. -/
theorem writeAutoreloadSetsTheLimitUnlessPreloaded : Obligations.WriteAutoreloadSetsTheLimitUnlessPreloaded :=
  fun _ w free => exec_timer_keepsLine (i := .wrAutoreload w) rfl nofun free rfl

/-- Settles O19: both unmapped accesses leave TIMER's variables as they are, so that only the outcome is new. -/
theorem unmappedAccessIsReportedAndChangesNothing : Obligations.UnmappedAccessIsReportedAndChangesNothing :=
  fun _ off w free _ =>
    ⟨exec_timer_unchanged (i := .rdUnmapped off) rfl nofun free rfl, exec_timer_unchanged (i := .wrUnmapped off w) rfl nofun free rfl⟩

/-- Settles O22: no TIMER operation but TICK has a premise on TIMER's variables. -/
theorem registerOperationsAreDefinedInEveryState : Obligations.RegisterOperationsAreDefinedInEveryState := by
  intro i s unit notTick free quiet
  obtain ⟨t, run, _, _, link⟩ := exec_timer_completes unit (fun tick => absurd tick notTick) free (fun _ => quiet)
  exact ⟨t, run, link⟩

/-! ### Reads (R45), and a read after a write (R124) -/

/-- The bus reads are TIMER operations, no tick, and leave TIMER's variables as they are. -/
theorem isRead_unchanged {i : Instr} (read : isRead i = true) : unitOf i = .timer ∧ i ≠ .tick ∧ ∀ t, timerAfter t i = t := by
  cases i <;> simp only [isRead, reduceCtorEq] at read <;> exact ⟨rfl, nofun, fun _ => rfl⟩

/-- Settles O21: a read leaves TIMER's variables as they are, so that it only records its outcome, and the same one when repeated. -/
theorem readsHaveNoSideEffects : Obligations.ReadsHaveNoSideEffects := by
  intro i s read free
  obtain ⟨unit, notTick, same⟩ := isRead_unchanged read
  have run : ∀ z : State, Callback.irqChange ∉ z.inside → exec i z = .next (z.answer (timerResult z.timer i)) := fun z freeZ =>
    exec_timer_unchanged unit (fun tick => absurd tick notTick) freeZ (same z.timer)
  exact ⟨_, run s free, rfl, run (s.answer (timerResult s.timer i)) free⟩

/-- A read right after a write, neither a tick: it returns what it reads of TIMER as the write leaves it. -/
theorem execAll_write_read {wr rd : Instr} {s : State} {v : Word} (unit : unitOf wr = .timer) (notTick : wr ≠ .tick)
    (read : isRead rd = true) (free : Callback.irqChange ∉ s.inside) (quiet : (timerAfter s.timer wr).irq ≠ s.timer.irq → s.irqQuiet)
    (word : timerResult (timerAfter s.timer wr) rd = .word v) :
    ∃ t, execAll [wr, rd] s = .next t ∧ t.result = some (.word v) := by
  obtain ⟨unitR, notTickR, same⟩ := isRead_unchanged read
  obtain ⟨u, run, _, timer, _⟩ := exec_timer_completes unit (fun tick => absurd tick notTick) free quiet
  have freeU : Callback.irqChange ∉ u.inside := (exec_timer unit run).1.inside.symm ▸ free
  obtain ⟨t, runR, result, _, _⟩ := exec_timer_reads unitR notTickR (same u.timer) freeU
  exact ⟨t, by simp only [execAll, run, runR], by rw [result, timer, word]⟩

/-- Settles O20: `execAll_write_read`, and for each register the word its read gives of what its write leaves. Only three of the seven
writes can change the line. -/
theorem registersReadBackAsTheSummarySays : Obligations.RegistersReadBackAsTheSummarySays := by
  intro s w free
  have lineKept : ∀ {i : Instr}, (timerAfter s.timer i).irq = s.timer.irq → (timerAfter s.timer i).irq ≠ s.timer.irq → s.irqQuiet :=
    fun same changed => absurd same changed
  refine ⟨?_, fun quiet => ?_, fun quiet => ?_, fun quiet => ?_, ?_, ?_, ?_⟩
  · exact execAll_write_read rfl nofun rfl free (lineKept rfl) (congrArg _ (Timer.readControl1_writeControl1 s.timer w))
  · exact execAll_write_read rfl nofun rfl free (fun _ => quiet) (congrArg _ (fieldBit_zero_getLsbD w))
  · refine execAll_write_read rfl nofun rfl free (fun _ => quiet) (congrArg Result.word ?_)
    show (s.timer.writeStatus w).readStatus = _
    rw [Timer.writeStatus_eq, Timer.readStatus]
    cases s.timer.interruptFlag
    · rfl
    · exact fieldBit_zero_getLsbD w
  · exact execAll_write_read rfl nofun rfl free (fun _ => quiet) rfl
  · exact execAll_write_read rfl nofun rfl free (lineKept rfl) rfl
  · exact execAll_write_read rfl nofun rfl free (lineKept rfl) (congrArg _ (Timer.readPrescaler_writePrescaler s.timer w))
  · exact execAll_write_read rfl nofun rfl free (lineKept rfl) rfl

/-! ### Reset (R210, R213) -/

/-- Settles O36: RESET_TIMER leaves the power-on TIMER, whose flag is clear, so that the line is deasserted. -/
theorem resetTimerSetsEveryVariable : Obligations.ResetTimerSetsEveryVariable := by
  intro s free quiet
  obtain ⟨t, run, result, link, advisories, timer⟩ := exec_timer_effect (i := .resetTimer) rfl nofun free (fun _ => quiet)
  refine ⟨t, run, result, link, advisories, ?_⟩
  rw [State.irq_eq, timer]
  exact ⟨rfl, rfl, rfl, rfl, rfl, rfl, rfl, rfl, rfl, rfl, rfl, rfl, rfl⟩

/-- Settles O37: what each reset leaves of its unit, whatever the consumers call. -/
theorem resetsBringBackThePowerOnState : Obligations.ResetsBringBackThePowerOnState := by
  refine fun s t => ⟨fun run => (exec_timer rfl run).2.1, fun run => ?_⟩
  obtain ⟨_, rfl⟩ := resetLinkOp_next run
  rfl

/-- Settles O38: `initialLimit_range`, and TIMER is Disabled at reset. -/
theorem resetStateIsInsideTheDomain : Obligations.ResetStateIsInsideTheDomain :=
  ⟨initialLimit_range.1, ⟨initialLimit_range.1, nofun⟩, rfl⟩

end Sys2Proof.Machine
end

section
/-! PROOFS. Counting (42_timer_counting.md): one tick, the period law over sequences of ticks (R146), and the domain (R25). -/

namespace Sys2Proof.Machine

/-! ### One tick -/

/-- TIMER after the tick on which the limit event is due: the group of ticks ends, and the event happens (R141). -/
def Timer.dueEvent (t : Timer) : Timer := Timer.limitEvent { t with presc := 0 }

theorem Timer.tick_due {t : Timer} (due : t.limitDue = true) : t.tick = some t.dueEvent := Timer.tick_limitDue due

/-- That event whole, with its frame (R143, R144, R145). -/
theorem Timer.dueEvent_eq {t : Timer} (enabled : t.enabled = true) :
    t.dueEvent =
      { t with
        value := 0
        presc := 0
        enabled := decide (t.mode = .periodic)
        limit := if t.updateDisable then t.limit else t.autoReloadValue
        interruptFlag := t.interruptFlag || (!t.updateDisable && t.interruptEnable) } := by
  rw [Timer.dueEvent, Timer.limitEvent_eq]; simp [enabled]

/-- A tick has no meaning exactly while Enabled outside the domain (R142, R152). -/
theorem Timer.tick_eq_none (t : Timer) : t.tick = none ↔ t.enabled = true ∧ (t.limit = 0 ∨ t.limit.toNat ≤ t.value.toNat) := by
  rw [← Timer.pastLimit_eq_true, Timer.tick]
  cases t.enabled <;> cases t.pastLimit <;> simp

/-- An Enabled tick inside the domain with no event due (R141): counter and phase alone change, by the two cases of a group. -/
theorem Timer.tick_counts {t : Timer} (enabled : t.enabled = true) (inside : t.value.toNat < t.limit.toNat) (due : t.limitDue = false) :
    ∃ u, t.tick = some u ∧ u.irq = t.irq ∧ (t.presc + 1 < t.divider → u = { t with presc := t.presc + 1 }) ∧
      (t.divider ≤ t.presc + 1 → u = { t with presc := 0, value := u.value } ∧ u.value.toNat = t.value.toNat + 1) := by
  by_cases within : t.presc + 1 < t.divider
  · exact ⟨_, Timer.tick_phase enabled inside within, rfl, fun _ => rfl, fun ends => absurd within (Nat.not_lt.2 ends)⟩
  · have ends := Nat.not_lt.1 within
    have short : t.value.toNat + 1 ≠ t.limit.toNat := fun reached => by
      rw [(Timer.limitDue_iff t).2 ⟨enabled, ends, reached⟩] at due; cases due
    exact ⟨_, Timer.tick_increment enabled (by omega) ends, rfl, fun c => absurd c within, fun _ => ⟨rfl, Timer.succ_value_toNat inside⟩⟩

/-- Settles O23: TIMER's variables are as they were, so that only the outcome is new. -/
theorem disabledTickChangesNothing : Obligations.DisabledTickChangesNothing := by
  intro s free disabled
  have stays := Timer.tick_disabled disabled
  exact exec_timer_unchanged (i := .tick) rfl (fun _ => by simp [stays]) free (by rw [timerAfter, stays]; rfl)

/-- Settles O24: TICK stops exactly where `Timer.tick` has no answer (`Timer.tick_eq_none`). -/
theorem tickIsRefusedExactlyOutsideTheDomain : Obligations.TickIsRefusedExactlyOutsideTheDomain := by
  intro s free quiet
  cases counted : s.timer.tick with
  | none =>
    obtain ⟨enabled, past⟩ := (Timer.tick_eq_none s.timer).1 counted
    refine ⟨iff_of_true (exec_tick_none free counted) ⟨enabled, past⟩, ?_⟩
    rintro (disabled | ⟨nonzero, below⟩)
    · rw [enabled] at disabled; cases disabled
    · exact absurd past (not_or.2 ⟨nonzero, Nat.not_le.2 below⟩)
  | some u =>
    have run := exec_tick_some free (fun _ => quiet) counted
    refine ⟨iff_of_false (by simp [run]) fun outside => ?_, fun _ => ⟨_, run⟩⟩
    rw [(Timer.tick_eq_none s.timer).2 outside] at counted; cases counted

/-- Settles O25: `Timer.tick_counts`, which leaves flag and enable, and so the line, alone. -/
theorem tickCountsOncePerDividerTicks : Obligations.TickCountsOncePerDividerTicks := by
  intro s free enabled _ inside due
  obtain ⟨u, counted, line, phase, ends⟩ := Timer.tick_counts enabled inside due
  have after : timerAfter s.timer .tick = u := by rw [timerAfter, counted]; rfl
  obtain ⟨t, run, result, link, notices, advisories, timer⟩ :=
    exec_timer_keepsLine (i := .tick) rfl (fun _ => by simp [counted]) free (by rw [after, line])
  obtain rfl : t.timer = u := timer.trans after
  exact ⟨t, run, result, link, notices, advisories, phase, ends⟩

/-- Settles O27: the tick is the limit event (`Timer.tick_due`), whose frame is `Timer.dueEvent_eq`. -/
theorem limitEventWrapsAndStopsOneShot : Obligations.LimitEventWrapsAndStopsOneShot := by
  intro s free quiet due
  have event := Timer.tick_due due
  obtain ⟨t, run, result, link, advisories, timer⟩ :=
    exec_timer_effect (i := .tick) rfl (fun _ => by simp [event]) free (fun _ => quiet)
  refine ⟨t, run, result, link, advisories, timer.trans ?_⟩
  rw [timerAfter, event, ← Timer.dueEvent_eq ((Timer.limitDue_iff _).1 due).1]; rfl

/-- Settles O30: a tick inside a period stays below the limit, and an event leaves the counter at 0 below the limit it leaves. -/
theorem ticksStayInsideTheDomain : Obligations.TicksStayInsideTheDomain := by
  intro s t domain pending run
  obtain ⟨u, counted, timer⟩ := exec_tick_next run
  rw [timer]
  obtain ⟨positive, below⟩ := domain
  rcases Timer.tick_cases counted with ⟨_, rfl⟩ | ⟨_, inside, _, rfl⟩ | ⟨_, short, _, rfl⟩ | ⟨_, rfl⟩
  · exact ⟨positive, below⟩
  · exact ⟨positive, fun _ => inside⟩
  · exact ⟨positive, fun _ => by rw [Timer.succ_value_toNat (t := s.timer) (by omega)]; exact short⟩
  · have reloaded : 1 ≤ (if s.timer.updateDisable then s.timer.limit else s.timer.autoReloadValue).toNat := by
      split <;> assumption
    exact ⟨reloaded, fun _ => reloaded⟩

/-! ### The period law (R146) -/

/-- The ticks to the next limit event (R146). -/
def Timer.period (t : Timer) : Nat := (t.limit.toNat - t.value.toNat) * t.divider - t.presc

/-- TIMER after `n` ticks that reach no event: of the `presc + n` ticks since the counter last moved from `value`, quotient and remainder by
the divider (R146). -/
def Timer.counted (t : Timer) (n : Nat) : Timer :=
  { t with
    value := BitVec.ofNat 32 (t.value.toNat + (t.presc + n) / t.divider)
    presc := (t.presc + n) % t.divider }

/-- No tick has counted nothing, the phase being below the divider (R12). -/
theorem Timer.counted_zero {t : Timer} (inv : t.Inv) : t.counted 0 = t := by
  obtain ⟨_, _, phase⟩ := inv
  simp [Timer.counted, Nat.div_eq_of_lt phase, Nat.mod_eq_of_lt phase]

/-- One more tick, `m` being those counted: the group goes on, or it is full and the quotient moves (R141). -/
theorem succ_div_mod (m : Nat) {d : Nat} (pos : 0 < d) :
    (m % d + 1 < d ∧ (m + 1) / d = m / d ∧ (m + 1) % d = m % d + 1) ∨
      (m % d + 1 = d ∧ (m + 1) / d = m / d + 1 ∧ (m + 1) % d = 0) := by
  have whole := Nat.mod_add_div m d
  rcases Nat.lt_or_eq_of_le (Nat.succ_le_of_lt (Nat.mod_lt m pos)) with within | full
  · exact .inl ⟨within, (Nat.div_mod_unique pos).2 ⟨by omega, within⟩⟩
  · refine .inr ⟨full, (Nat.div_mod_unique pos).2 ⟨?_, pos⟩⟩
    rw [Nat.mul_succ]; omega

/-- Before the event the counter has not reached the limit, and so has not wrapped (R149). -/
theorem Timer.counted_value {t : Timer} {n : Nat} (before : n < t.period) :
    (t.counted n).value.toNat = t.value.toNat + (t.presc + n) / t.divider ∧
      t.value.toNat + (t.presc + n) / t.divider < t.limit.toNat := by
  have groups : (t.presc + n) / t.divider < t.limit.toNat - t.value.toNat := by
    rw [Timer.period] at before
    exact Nat.div_lt_of_lt_mul (by rw [Nat.mul_comm]; omega)
  have top := t.limit.isLt
  have below : t.value.toNat + (t.presc + n) / t.divider < t.limit.toNat := Nat.add_lt_of_lt_sub' groups
  exact ⟨Nat.mod_eq_of_lt (below.trans top), below⟩

/-- Before the event's own tick, one tick more has counted one more (R141, R146). -/
theorem Timer.tick_counted {t : Timer} {n : Nat} (inv : t.Inv) (enabled : t.enabled = true) (before : n + 1 < t.period) :
    (t.counted n).tick = some (t.counted (n + 1)) := by
  obtain ⟨value, below⟩ := Timer.counted_value (Nat.lt_of_succ_lt before)
  obtain ⟨_, belowNext⟩ := Timer.counted_value before
  have inside : (t.counted n).value.toNat < (t.counted n).limit.toNat := value ▸ below
  rw [← Nat.add_assoc] at belowNext
  rcases succ_div_mod (t.presc + n) inv.1 with ⟨within, quotient, remainder⟩ | ⟨full, quotient, remainder⟩
  · rw [Timer.tick_phase (t := t.counted n) enabled inside within]
    simp only [Timer.counted, ← Nat.add_assoc, quotient, remainder]
  · rw [quotient, ← Nat.add_assoc, ← value] at belowNext
    rw [Timer.tick_increment (t := t.counted n) enabled belowNext (Nat.le_of_eq full.symm)]
    simp only [Timer.counted, ← Nat.add_assoc, quotient, remainder, BitVec.ofNat_add]
    rfl

/-- On the event's own tick the group is full and the increment reaches the limit (R146). -/
theorem Timer.limitDue_counted {t : Timer} {n : Nat} (inv : t.Inv) (enabled : t.enabled = true) (last : n + 1 = t.period) :
    (t.counted n).limitDue = true := by
  obtain ⟨value, _⟩ := Timer.counted_value (t := t) (n := n) (by omega)
  have ticks : t.presc + n + 1 = (t.limit.toNat - t.value.toNat) * t.divider := by rw [Timer.period] at last; omega
  rcases succ_div_mod (t.presc + n) inv.1 with ⟨_, _, remainder⟩ | ⟨full, quotient, _⟩
  · rw [ticks, Nat.mul_mod_left] at remainder; omega
  · rw [ticks, Nat.mul_div_cancel _ inv.1] at quotient
    exact (Timer.limitDue_iff _).2 ⟨enabled, Nat.le_of_eq full.symm, by rw [value]; show _ = t.limit.toNat; omega⟩

/-- The event wraps the counter wherever it stood (R143). -/
theorem Timer.dueEvent_counted (t : Timer) (n : Nat) :
    (t.counted n).dueEvent = t.dueEvent := by
  rw [Timer.dueEvent, Timer.limitEvent_eq, Timer.dueEvent, Timer.limitEvent_eq]; rfl

theorem Timer.period_pos {t : Timer} (inv : t.Inv) (inside : t.value.toNat < t.limit.toNat) : 0 < t.period := by
  have one : t.divider ≤ (t.limit.toNat - t.value.toNat) * t.divider := Nat.le_mul_of_pos_left _ (by omega)
  have phase := inv.2.2
  rw [Timer.period]; omega

/-- Ticks that reach no event (R146): they leave the line, and so its consumer's calls, alone. -/
theorem execAll_ticks_counted {s : State} {n : Nat} (free : Callback.irqChange ∉ s.inside) (inv : s.timer.Inv)
    (enabled : s.timer.enabled = true) (before : n < s.timer.period) :
    ∃ t, execAll (ticks n) s = .next t ∧ t.timer = s.timer.counted n ∧ linkSideKept s t ∧ t.inside = s.inside ∧
      t.irqCalls = s.irqCalls := by
  induction n with
  | zero => exact ⟨s, rfl, (Timer.counted_zero inv).symm, ⟨rfl, rfl⟩, rfl, rfl⟩
  | succ n ih =>
    obtain ⟨t, run, timer, link, inside, calls⟩ := ih (by omega)
    have counted := Timer.tick_counted inv enabled before
    rw [← timer] at counted
    have line : (s.timer.counted (n + 1)).irq = t.timer.irq := by rw [timer]; rfl
    have tick := exec_tick_some (inside.symm ▸ free) (fun changed => absurd line changed) counted
    rw [State.notified_same line] at tick
    exact ⟨(t.withTimer (s.timer.counted (n + 1))).answer .done,
      by rw [ticks_succ, execAll_append, run, andThen_next, execAll_one, tick], rfl, link, inside, calls⟩

/-- A whole period (R146): it ends with the limit event, whose notice, if any, goes to a consumer that calls nothing. -/
theorem execAll_ticks_period {s : State} (free : Callback.irqChange ∉ s.inside) (inv : s.timer.Inv) (enabled : s.timer.enabled = true)
    (below : s.timer.value.toNat < s.timer.limit.toNat)
    (quiet : s.timer.dueEvent.irq ≠ s.timer.irq → s.irqQuiet) :
    ∃ t, execAll (ticks s.timer.period) s = .next t ∧ t.timer = s.timer.dueEvent ∧ linkSideKept s t ∧
      t.inside = s.inside := by
  obtain ⟨n, last⟩ := Nat.exists_eq_succ_of_ne_zero (Timer.period_pos inv below).ne'
  obtain ⟨t, run, timer, link, inside, calls⟩ := execAll_ticks_counted free inv enabled (n := n) (by omega)
  have event := Timer.tick_due (Timer.limitDue_counted inv enabled last.symm)
  rw [Timer.dueEvent_counted, ← timer] at event
  have tick := exec_tick_some (inside.symm ▸ free) (fun changed => by
    rw [State.irqQuiet, calls]; exact quiet (by rwa [timer] at changed)) event
  refine ⟨(t.notified s.timer.dueEvent).answer .done,
    by rw [last, ticks_succ, execAll_append, run, andThen_next, execAll_one, tick], State.notified_timer _ _, ?_,
    (State.notified_inside _ _).trans inside⟩
  obtain ⟨kept, sent⟩ := linkSideKept_notified_answer t s.timer.dueEvent .done
  exact ⟨kept.trans link.1, sent.trans link.2⟩

/-- Settles O28: `execAll_ticks_counted` before the event, and `execAll_ticks_period` with it. -/
theorem limitEventComesAfterExactlyThePeriod : Obligations.LimitEventComesAfterExactlyThePeriod := by
  intro s free quiet inv enabled domain
  constructor
  · intro n before
    obtain ⟨t, run, timer, _⟩ := execAll_ticks_counted free inv enabled before
    exact ⟨t, run, timer⟩
  · obtain ⟨t, run, timer, _⟩ := execAll_ticks_period free inv enabled (domain.2 enabled) (fun _ => quiet)
    exact ⟨t, run, timer.trans (Timer.dueEvent_eq enabled)⟩

/-- TIMER after `k` whole periods of a periodic timer that started one: as it stood, but for a flag raised by the first event. -/
def Timer.afterPeriods (t : Timer) (k : Nat) : Timer :=
  { t with interruptFlag := t.interruptFlag || (decide (1 ≤ k) && !t.updateDisable && t.interruptEnable) }

theorem Timer.afterPeriods_zero (t : Timer) : t.afterPeriods 0 = t := by simp [Timer.afterPeriods]

/-- The event at the end of one more period leaves the flag raised, where it raises it at all. -/
theorem Timer.dueEvent_afterPeriods {t : Timer} (k : Nat) (enabled : t.enabled = true) (periodic : t.mode = .periodic)
    (same : t.autoReloadValue = t.limit) (value : t.value = 0) (presc : t.presc = 0) :
    (t.afterPeriods k).dueEvent = t.afterPeriods (k + 1) := by
  rw [Timer.dueEvent_eq (t := t.afterPeriods k) enabled]
  simp only [Timer.afterPeriods, same, periodic, value, presc, enabled, ite_self]
  cases t.interruptFlag <;> cases t.updateDisable <;> cases t.interruptEnable <;> simp

/-- Only the first event can change the line: after it the flag stays as it is. -/
theorem Timer.afterPeriods_irq (t : Timer) {k : Nat} (later : 1 ≤ k) : (t.afterPeriods (k + 1)).irq = (t.afterPeriods k).irq := by
  simp [Timer.irq, Timer.afterPeriods, later]

/-- Settles O29, by induction on the periods: each is `execAll_ticks_period`, and only the first can notify anybody
(`Timer.afterPeriods_irq`). -/
theorem periodicEventsRecurEveryPeriod : Obligations.PeriodicEventsRecurEveryPeriod := by
  intro s k free quiet inv enabled periodic one same value presc
  suffices h : ∃ t, execAll (ticks (k * (s.timer.limit.toNat * s.timer.divider))) s = .next t ∧ linkSideKept s t ∧
      t.timer = s.timer.afterPeriods k ∧ t.inside = s.inside ∧ (k = 0 → t = s) by
    obtain ⟨t, run, link, timer, _⟩ := h
    exact ⟨t, run, link, timer⟩
  induction k with
  | zero => exact ⟨s, by rw [Nat.zero_mul]; rfl, ⟨rfl, rfl⟩, (Timer.afterPeriods_zero _).symm, rfl, fun _ => rfl⟩
  | succ k ih =>
    obtain ⟨t, run, link, timer, inside, start⟩ := ih
    have event := Timer.dueEvent_afterPeriods k enabled periodic same value presc
    have period : t.timer.period = s.timer.limit.toNat * s.timer.divider := by
      rw [timer]; simp [Timer.period, Timer.afterPeriods, value, presc]
    obtain ⟨u, runU, timerU, linkU, insideU⟩ := execAll_ticks_period (s := t) (inside.symm ▸ free) (timer.symm ▸ inv) (timer.symm ▸ enabled)
      (by rw [timer]; simp only [Timer.afterPeriods, value]; exact one) (fun changed => by
        rcases Nat.eq_zero_or_pos k with first | later
        · rw [start first]; exact quiet
        · rw [timer, event] at changed; exact absurd (Timer.afterPeriods_irq _ later) changed)
    refine ⟨u, ?_, ⟨linkU.1.trans link.1, linkU.2.trans link.2⟩, ?_, insideU.trans inside, nofun⟩
    · rw [Nat.succ_mul, ticks_add, execAll_append, run, andThen_next, ← period, runU]
    · rw [timerU, timer, event]

end Sys2Proof.Machine
end

section
/-! PROOFS. Whole-machine rules of TIMER: which operation changes the limit, the flag, the enable, the mode and the line (R14, R20, R52,
R140, R187), and the preload law (R150, R217). Each is read off `timerAfter`, which `exec_timerSide` ties to every operation. -/

namespace Sys2Proof.Machine

/-- A tick, taken or refused, changes counter and phase alone, or is the limit event due. -/
theorem timerAfter_tick (t : Timer) :
    (∃ v p, timerAfter t .tick = { t with value := v, presc := p }) ∨ (t.limitDue = true ∧ timerAfter t .tick = t.dueEvent) := by
  rw [timerAfter]
  cases counted : t.tick with
  | none => exact .inl ⟨_, _, rfl⟩
  | some u =>
    rcases Timer.tick_cases counted with ⟨_, rfl⟩ | ⟨_, _, _, rfl⟩ | ⟨_, _, _, rfl⟩ | ⟨due, rfl⟩
    · exact .inl ⟨_, _, rfl⟩
    · exact .inl ⟨_, _, rfl⟩
    · exact .inl ⟨_, _, rfl⟩
    · exact .inr ⟨due, (Timer.dueEvent_eq ((Timer.limitDue_iff t).1 due).1).symm⟩

/-- A due event leaves the limit alone under `updateDisable`, and else takes the pending one (R144). -/
theorem Timer.dueEvent_limit (t : Timer) : t.dueEvent.limit = if t.updateDisable then t.limit else t.autoReloadValue :=
  Timer.limitEvent_limit _

theorem Timer.dueEvent_autoReloadValue (t : Timer) : t.dueEvent.autoReloadValue = t.autoReloadValue := by
  rw [Timer.dueEvent, Timer.limitEvent_eq]

theorem Timer.dueEvent_interruptFlag (t : Timer) :
    t.dueEvent.interruptFlag = (t.interruptFlag || (!t.updateDisable && t.interruptEnable)) := Timer.limitEvent_interruptFlag _

theorem Timer.dueEvent_enabled (t : Timer) : t.dueEvent.enabled = (t.enabled && decide (t.mode = .periodic)) := by
  rw [Timer.dueEvent, Timer.limitEvent_eq]

theorem Timer.dueEvent_mode (t : Timer) : t.dueEvent.mode = t.mode := by rw [Timer.dueEvent, Timer.limitEvent_eq]

/-- What an operation can change beside counter, phase, divider, interrupt enable and flag: only these four kinds of operation touch any
of the other seven variables (R10). -/
theorem timerAfter_cases (t : Timer) (i : Instr) :
    i = .resetTimer ∨ (∃ w, i = .wrControl1 w) ∨ (∃ w, i = .wrAutoreload w) ∨
      (i = .tick ∧ t.limitDue = true ∧ timerAfter t i = t.dueEvent) ∨
      ∃ v p d e f, timerAfter t i = { t with value := v, presc := p, divider := d, interruptEnable := e, interruptFlag := f } := by
  cases i
  case resetTimer => exact .inl rfl
  case wrControl1 w => exact .inr (.inl ⟨w, rfl⟩)
  case wrAutoreload w => exact .inr (.inr (.inl ⟨w, rfl⟩))
  case tick =>
    rcases timerAfter_tick t with ⟨_, _, counts⟩ | ⟨due, event⟩
    · exact .inr (.inr (.inr (.inr ⟨_, _, _, _, _, counts⟩)))
    · exact .inr (.inr (.inr (.inl ⟨rfl, due, event⟩)))
  case wrStatus w => rw [timerAfter, Timer.writeStatus_eq]; exact .inr (.inr (.inr (.inr ⟨_, _, _, _, _, rfl⟩)))
  case wrEventgen w =>
    rw [timerAfter, Timer.writeEventgen_eq]
    split <;> exact .inr (.inr (.inr (.inr ⟨_, _, _, _, _, rfl⟩)))
  all_goals exact .inr (.inr (.inr (.inr ⟨_, _, _, _, _, rfl⟩)))

/-- What changes the limit (R14). -/
theorem timerAfter_limit {t : Timer} {i : Instr} (changed : (timerAfter t i).limit ≠ t.limit) :
    i = .resetTimer ∨ (∃ w, i = .wrAutoreload w ∧ t.autoReloadPreloadEnable = false) ∨
      (i = .tick ∧ t.limitDue = true ∧ t.updateDisable = false) := by
  obtain rfl | ⟨w, rfl⟩ | ⟨w, rfl⟩ | ⟨rfl, due, event⟩ | ⟨_, _, _, _, _, other⟩ := timerAfter_cases t i
  · exact .inl rfl
  · exact absurd rfl changed
  · exact .inr (.inl ⟨w, rfl, Bool.eq_false_iff.2 fun preload => changed (if_pos preload)⟩)
  · rw [event, Timer.dueEvent_limit] at changed
    exact .inr (.inr ⟨rfl, due, Bool.eq_false_iff.2 fun suppressed => changed (if_pos suppressed)⟩)
  · rw [other] at changed; exact absurd rfl changed

/-- What changes the pending limit (R15). -/
theorem timerAfter_autoReloadValue {t : Timer} {i : Instr} (keeps : writesPendingLimit i = false) :
    (timerAfter t i).autoReloadValue = t.autoReloadValue := by
  obtain rfl | ⟨w, rfl⟩ | ⟨w, rfl⟩ | ⟨rfl, _, event⟩ | ⟨_, _, _, _, _, other⟩ := timerAfter_cases t i
  · cases keeps
  · rfl
  · cases keeps
  · rw [event, Timer.dueEvent_autoReloadValue]
  · rw [other]

/-- What enables and disables TIMER (R16, R140). -/
theorem timerAfter_enabled {t : Timer} {i : Instr} (changed : (timerAfter t i).enabled ≠ t.enabled) :
    (∃ w, i = .wrControl1 w ∧ (timerAfter t i).enabled = w.getLsbD 0) ∨
      (timerAfter t i).enabled = false ∧ (i = .resetTimer ∨ (i = .tick ∧ t.limitDue = true ∧ t.mode = .oneShot)) := by
  obtain rfl | ⟨w, rfl⟩ | ⟨w, rfl⟩ | ⟨rfl, due, event⟩ | ⟨_, _, _, _, _, other⟩ := timerAfter_cases t i
  · exact .inr ⟨rfl, .inl rfl⟩
  · exact .inl ⟨w, rfl, rfl⟩
  · exact absurd rfl changed
  · rw [event, Timer.dueEvent_enabled] at changed ⊢
    cases mode : t.mode with
    | periodic => rw [mode] at changed; exact absurd (Bool.and_true _) changed
    | oneShot => exact .inr ⟨Bool.and_false _, .inr ⟨rfl, due, rfl⟩⟩
  · rw [other] at changed; exact absurd rfl changed

/-- What changes the mode (R17). -/
theorem timerAfter_mode {t : Timer} {i : Instr} (changed : (timerAfter t i).mode ≠ t.mode) :
    i = .resetTimer ∨ ∃ w, i = .wrControl1 w := by
  obtain rfl | ⟨w, rfl⟩ | ⟨w, rfl⟩ | ⟨rfl, _, event⟩ | ⟨_, _, _, _, _, other⟩ := timerAfter_cases t i
  · exact .inl rfl
  · exact .inr ⟨w, rfl⟩
  · exact absurd rfl changed
  · rw [event, Timer.dueEvent_mode] at changed; exact absurd rfl changed
  · rw [other] at changed; exact absurd rfl changed

/-- What sets the flag (R187). -/
theorem timerAfter_sets_flag {t : Timer} {i : Instr} (clear : t.interruptFlag = false) (set : (timerAfter t i).interruptFlag = true) :
    t.updateDisable = false ∧ t.interruptEnable = true ∧
      ((i = .tick ∧ t.limitDue = true) ∨ ∃ w, i = .wrEventgen w ∧ w.getLsbD 0 = true ∧ t.updateRequestSource = false) := by
  have changed : (timerAfter t i).interruptFlag ≠ t.interruptFlag := by rw [set, clear]; nofun
  cases i
  case tick =>
    rcases timerAfter_tick t with ⟨_, _, counts⟩ | ⟨due, event⟩
    · rw [counts] at changed; exact absurd rfl changed
    · rw [event, Timer.dueEvent_interruptFlag, clear, Bool.false_or, Bool.and_eq_true, Bool.not_eq_true'] at set
      exact ⟨set.1, set.2, .inl ⟨rfl, due⟩⟩
  case wrEventgen w =>
    rw [timerAfter, Timer.writeEventgen_eq] at set
    split at set
    · case isTrue forced =>
      rw [clear, Bool.false_or, Bool.and_eq_true, Bool.not_eq_true'] at set
      exact ⟨forced.2, set.2, .inr ⟨w, rfl, forced.1, set.1⟩⟩
    · rw [clear] at set; cases set
  case wrStatus w => rw [timerAfter, Timer.writeStatus_eq, clear] at set; cases set
  case resetTimer => cases set
  all_goals exact absurd rfl changed

/-- What clears the flag (R20). -/
theorem timerAfter_clears_flag {t : Timer} {i : Instr} (set : t.interruptFlag = true) (clear : (timerAfter t i).interruptFlag = false) :
    i = .resetTimer ∨ ∃ w, i = .wrStatus w ∧ w.getLsbD 0 = false := by
  have changed : (timerAfter t i).interruptFlag ≠ t.interruptFlag := by rw [set, clear]; nofun
  cases i
  case tick =>
    rcases timerAfter_tick t with ⟨_, _, counts⟩ | ⟨_, event⟩
    · rw [counts] at changed; exact absurd rfl changed
    · rw [event, Timer.dueEvent_interruptFlag, set] at clear; cases clear
  case wrEventgen w =>
    rw [timerAfter, Timer.writeEventgen_eq] at clear
    split at clear <;> (rw [set] at clear; cases clear)
  case wrStatus w => rw [timerAfter, Timer.writeStatus_eq, set] at clear; exact .inr ⟨w, rfl, clear⟩
  case resetTimer => exact .inl rfl
  all_goals exact absurd rfl changed

/-- Settles O32: `timerAfter_limit`. -/
theorem limitIsWrittenByThreeThingsOnly : Obligations.LimitIsWrittenByThreeThingsOnly := by
  intro i s t quiet run changed
  rw [(exec_timerSide quiet run).1] at changed
  exact timerAfter_limit changed

/-- Settles O33: `timerAfter_sets_flag` and `timerAfter_clears_flag`. -/
theorem flagIsSetAndClearedOnlyAsListed : Obligations.FlagIsSetAndClearedOnlyAsListed := by
  intro i s t quiet run
  rw [(exec_timerSide quiet run).1]
  exact ⟨timerAfter_sets_flag, timerAfter_clears_flag⟩

/-- Settles O34: `timerAfter_enabled` in both directions, and `timerAfter_mode`. -/
theorem enableAndModeChangeOnlyAsListed : Obligations.EnableAndModeChangeOnlyAsListed := by
  intro i s t quiet run
  rw [(exec_timerSide quiet run).1]
  refine ⟨fun disabled enabled => ?_, fun enabled disabled => ?_, timerAfter_mode⟩
  · obtain ⟨w, rfl, bit⟩ | ⟨off, _⟩ := timerAfter_enabled (t := s.timer) (i := i) (by rw [enabled, disabled]; nofun)
    · exact ⟨w, rfl, bit.symm.trans enabled⟩
    · rw [enabled] at off; cases off
  · obtain ⟨w, rfl, bit⟩ | ⟨_, rfl | event⟩ := timerAfter_enabled (t := s.timer) (i := i) (by rw [enabled, disabled]; nofun)
    · exact .inr (.inl ⟨w, rfl, bit.symm.trans disabled⟩)
    · exact .inl rfl
    · exact .inr (.inr event)

/-- Settles O35: the notices are the second half of `exec_timerSide`. -/
theorem everyIrqChangeIsNotifiedOnce : Obligations.EveryIrqChangeIsNotifiedOnce :=
  fun _ _ _ quiet run => ⟨(exec_timerSide quiet run).2, rfl⟩

/-! ### The preload law (R150, R217) -/

/-- An operation before the natural reload leaves the limit and the pending limit alone. -/
theorem exec_beforeNaturalReload {i : Instr} {ops : List Instr} {s t : State} (quiet : s.sinkQuiet)
    (before : beforeNaturalReload (i :: ops) s = true) (run : exec i s = .next t) :
    t.timer.limit = s.timer.limit ∧ t.timer.autoReloadValue = s.timer.autoReloadValue ∧ beforeNaturalReload ops t = true := by
  simp only [beforeNaturalReload, run, Bool.and_eq_true, Bool.not_eq_true'] at before
  obtain ⟨⟨pending, noEvent⟩, rest⟩ := before
  rw [(exec_timerSide (fun _ => quiet) run).1]
  refine ⟨?_, timerAfter_autoReloadValue pending, rest⟩
  by_contra changed
  obtain rfl | ⟨w, rfl, _⟩ | ⟨rfl, due, unsuppressed⟩ := timerAfter_limit changed
  · cases pending
  · cases pending
  · simp [due, unsuppressed] at noEvent

/-- The same of any number of them, by induction on the sequence. -/
theorem execAll_beforeNaturalReload {ops : List Instr} {s t : State} (quiet : s.sinkQuiet) (before : beforeNaturalReload ops s = true)
    (run : execAll ops s = .next t) : t.timer.limit = s.timer.limit ∧ t.timer.autoReloadValue = s.timer.autoReloadValue := by
  induction ops generalizing s with
  | nil => cases run; exact ⟨rfl, rfl⟩
  | cons i ops ih =>
    rw [← List.singleton_append, execAll_append, execAll_one, andThen_eq_next] at run
    obtain ⟨u, one, rest⟩ := run
    obtain ⟨limit, pending, beforeRest⟩ := exec_beforeNaturalReload quiet before one
    obtain ⟨limitRest, pendingRest⟩ := ih (State.sinkQuiet_of_suffix quiet (exec_ports one).1.onByteCalls) beforeRest rest
    exact ⟨limitRest.trans limit, pendingRest.trans pending⟩

/-- Settles O31: the write leaves the limit and stores the pending one, the operations keep both (`execAll_beforeNaturalReload`), and the
event takes the pending one (`Timer.dueEvent_limit`). -/
theorem preloadedLimitWaitsForTheNaturalReload : Obligations.PreloadedLimitWaitsForTheNaturalReload := by
  intro s u t w ops preload quiet write before run
  have written : u.timer = s.timer.writeAutoreload w := (exec_timer rfl write).2.1
  have quietU := State.sinkQuiet_of_suffix quiet (exec_ports write).1.onByteCalls
  obtain ⟨limit, pending⟩ := execAll_beforeNaturalReload quietU before run
  rw [written] at limit pending
  refine ⟨limit.trans (if_pos preload), pending, fun free quietT due unsuppressed => ?_⟩
  refine ⟨_, exec_tick_some free (fun _ => quietT) (Timer.tick_due due), ?_⟩
  rw [State.answer_timer, State.notified_timer, Timer.dueEvent_limit, unsuppressed]
  exact pending

end Sys2Proof.Machine
end

section
/-! PROOFS. Frame construction (R170, R172): what the two loops of `buildFrame` leave, and the frame as the stream decoder reads it. -/

namespace Sys2Proof.Machine

/-! ### Checksums as sums -/

/-- The sum of the first `k` bytes. -/
def plainSum (a : Nat → Nat) (k : Nat) : Nat := ((List.range k).map a).sum

/-- The sum of the first `k` partial sums: byte `j` is in `k - j` of them. -/
def weightedSum (a : Nat → Nat) (k : Nat) : Nat := ((List.range k).map fun j => (k - j) * a j).sum

theorem plainSum_succ (a : Nat → Nat) (k : Nat) : plainSum a (k + 1) = plainSum a k + a k := List.sum_range_succ a k

/-- One byte more brings one partial sum more. -/
theorem weightedSum_succ (a : Nat → Nat) (k : Nat) : weightedSum a (k + 1) = weightedSum a k + plainSum a (k + 1) := by
  have once : ((List.range k).map fun j => (k + 1 - j) * a j).sum = weightedSum a k + plainSum a k := by
    rw [weightedSum, plainSum, ← List.sum_map_add]
    refine congrArg List.sum (List.map_congr_left fun j hj => ?_)
    rw [Nat.succ_sub (List.mem_range.1 hj).le, Nat.succ_mul]
  rw [plainSum_succ, weightedSum, List.sum_range_succ, once, Nat.add_sub_cancel_left, Nat.one_mul, Nat.add_assoc]

/-- The first two bytes apart from the rest. -/
theorem plainSum_add_two (a : Nat → Nat) (n : Nat) : plainSum a (n + 2) = a 0 + a 1 + plainSum (fun j => a (j + 2)) n := by
  rw [plainSum, List.sum_range_succ', List.sum_range_succ', ← Nat.add_assoc]; rfl

theorem weightedSum_add_two (a : Nat → Nat) (n : Nat) :
    weightedSum a (n + 2) = (n + 2) * a 0 + (n + 1) * a 1 + weightedSum (fun j => a (j + 2)) n := by
  rw [weightedSum, List.sum_range_succ', List.sum_range_succ', ← Nat.add_assoc]
  simp [weightedSum]

/-! ### The loops of `buildFrame` -/

/-- One round of the checksum loop over a body and its two checksum bytes (R170). -/
theorem checksumRound_append {n i : Nat} {body : List Byte} (size : body.length = n + 4) (inBody : i < n + 4) (c1 c2 : Byte) :
    checksumRound n (body ++ [c1, c2]) i = body ++ [c1 + body.getD i 0, c2 + (c1 + body.getD i 0)] := by
  simp [checksumRound, List.getD_eq_getElem?_getD, List.getElem?_append, size, inBody]

/-- The checksum loop: byte 1 takes in the bytes from index 2 on, byte 2 their partial sums (R170). -/
theorem foldl_checksumRound {n : Nat} {body : List Byte} (size : body.length = n + 4) {k : Nat} (bound : k ≤ n + 2) :
    (List.range' 2 k).foldl (checksumRound n) (body ++ [0, 0]) =
      body ++ [BitVec.ofNat 8 (plainSum (fun j => (body.getD (2 + j) 0).toNat) k),
        BitVec.ofNat 8 (weightedSum (fun j => (body.getD (2 + j) 0).toNat) k)] := by
  induction k with
  | zero => rfl
  | succ k ih =>
    rw [List.range'_1_concat, List.foldl_append, ih (by omega), List.foldl_cons, List.foldl_nil,
      checksumRound_append size (by omega), weightedSum_succ, plainSum_succ]
    simp only [BitVec.ofNat_add, BitVec.ofNat_toNat, BitVec.setWidth_eq]

/-- The payload loop over the four leading bytes and zeros (R170). -/
theorem foldl_payloadRound {head payload : List Byte} (size : head.length = 4) {k : Nat} (bound : k ≤ payload.length) :
    (List.range k).foldl (payloadRound payload) (head ++ List.replicate (payload.length + 2) 0) =
      head ++ payload.take k ++ List.replicate (payload.length - k + 2) 0 := by
  induction k with
  | zero => simp
  | succ k ih =>
    rw [List.range_succ, List.foldl_append, ih (by omega), List.foldl_cons, List.foldl_nil, payloadRound]
    have next : payload.take (k + 1) = payload.take k ++ [payload.getD k 0] := by
      rw [List.getD_eq_getElem _ _ bound, List.take_append_getElem]
    have front : (head ++ payload.take k).length = 4 + k := by simp [size]; omega
    rw [show payload.length - k + 2 = (payload.length - (k + 1) + 2) + 1 by omega, List.replicate_succ,
      List.set_append_right _ _ (Nat.le_of_eq front), front, Nat.sub_self, List.set_cons_zero, next]
    simp

/-- `buildFrame` in its domain (R172): the four leading bytes, the payload, and the two checksum bytes as sums over them. -/
theorem buildFrame_eq (command : Byte) {payload : List Byte} (domain : payload.length ≤ 255) :
    buildFrame command payload.length payload =
      [0xBC, 0xCF, command, BitVec.ofNat 8 payload.length] ++ payload ++
        [BitVec.ofNat 8 (command.toNat + payload.length + plainSum (fun j => (payload.getD j 0).toNat) payload.length),
          BitVec.ofNat 8 ((payload.length + 2) * command.toNat + (payload.length + 1) * payload.length +
            weightedSum (fun j => (payload.getD j 0).toNat) payload.length)] := by
  have filled := foldl_payloadRound (head := [0xBC, 0xCF, command, BitVec.ofNat 8 payload.length]) rfl (Nat.le_refl payload.length)
  rw [List.take_length, Nat.sub_self] at filled
  have lengthByte : (BitVec.ofNat 8 payload.length).toNat = payload.length := Nat.mod_eq_of_lt (by omega)
  have bytes : ∀ j, ([0xBC, 0xCF, command, BitVec.ofNat 8 payload.length] ++ payload).getD (2 + (j + 2)) 0 = payload.getD j 0 := by
    intro j
    rw [show 2 + (j + 2) = j + 4 by omega]; rfl
  have sums := foldl_checksumRound (n := payload.length)
    (body := [0xBC, 0xCF, command, BitVec.ofNat 8 payload.length] ++ payload) (by simp) (Nat.le_refl _)
  rw [plainSum_add_two, weightedSum_add_two] at sums
  simp only [bytes] at sums
  refine Eq.trans ?_ (sums.trans ?_)
  · rw [buildFrame, show (List.replicate (payload.length + 6) (0 : Byte)) = 0 :: 0 :: 0 :: 0 :: List.replicate (payload.length + 2) 0 from rfl]
    exact congrArg (fun l => (List.range' 2 (payload.length + 2)).foldl (checksumRound payload.length) l) filled
  · have first : ([0xBC, 0xCF, command, BitVec.ofNat 8 payload.length] ++ payload).getD (2 + 0) 0 = command := rfl
    have second : ([0xBC, 0xCF, command, BitVec.ofNat 8 payload.length] ++ payload).getD (2 + 1) 0 = BitVec.ofNat 8 payload.length := rfl
    rw [first, second, lengthByte]

/-- Settles O45: both frames, built. -/
theorem scanReplyIsTheSevenBytes : Obligations.ScanReplyIsTheSevenBytes := ⟨scanReply_eq, by decide⟩

/-- Settles O46: the domain is `buildFrameDefined`, and the sums are those of `buildFrame_eq`. -/
theorem checksumsHaveTheirClosedForm : Obligations.ChecksumsHaveTheirClosedForm := by
  refine ⟨fun command n payload => ?_, fun command payload domain => buildFrame_eq command domain⟩
  simp [buildFrameChecked, buildFrameDefined]

/-- A frame of the layout of R70 is cut off by counting, whatever follows it (R71, R72). -/
theorem splitFrame_layout (h0 h1 command c1 c2 : Byte) {payload : List Byte} (domain : payload.length ≤ 255) (rest : List Byte) :
    splitFrame ([h0, h1, command, BitVec.ofNat 8 payload.length] ++ payload ++ [c1, c2] ++ rest) =
      some ([h0, h1, command, BitVec.ofNat 8 payload.length] ++ payload ++ [c1, c2], rest) := by
  have lengthByte : (BitVec.ofNat 8 payload.length).toNat = payload.length := Nat.mod_eq_of_lt (by omega)
  have total : frameTotal ([h0, h1, command, BitVec.ofNat 8 payload.length] ++ payload ++ [c1, c2] ++ rest) = some (payload.length + 6) :=
    congrArg (fun n => some (n + 6)) lengthByte
  have size : ([h0, h1, command, BitVec.ofNat 8 payload.length] ++ payload ++ [c1, c2]).length = payload.length + 6 := by simp
  rw [splitFrame, total]
  simp only
  rw [if_pos (by rw [List.length_append, size]; omega), List.take_left' size, List.drop_left' size]

/-- Settles O5: the closed form `buildFrame_eq` has the layout that `splitFrame_layout` cuts off. -/
theorem builtFramesSplitBack : Obligations.BuiltFramesSplitBack := by
  intro command payload rest domain
  rw [buildFrame_eq command domain]
  exact ⟨splitFrame_layout _ _ _ _ _ domain rest, rfl, List.take_left' rfl⟩

end Sys2Proof.Machine
end

section
/-! PROOFS. LINK (43_framed_link.md): the end of a frame and its guards (R164 to R169, R211, R215), and LINK over a byte stream as the
stream decoder with a reply for every frame (R72, R166, R176). -/

namespace Sys2Proof.Machine

/-! ### One operation -/

/-- The append of a last byte completes the frame (R164). -/
theorem Link.accept_last {l : Link} (long : 4 ≤ l.rxbuf.length) (last : l.expected = some (l.rxbuf.length + 1)) (b : Byte) :
    l.accept b = { rxbuf := l.rxbuf ++ [b], expected := some (l.rxbuf ++ [b]).length } := by
  rw [Link.accept_other (by omega), last, List.length_append, List.length_singleton]

/-- INGEST of a completing byte, its sink quiet: the reply is emitted, LINK is empty, TIMER's side is as it was (R166, R169). -/
theorem exec_ingest_replies {s : State} {b : Byte} {frame : List Byte} (free : Callback.onByte ∉ s.inside) (connected : s.sinkConnected = true)
    (quiet : s.sinkQuiet) (accept : s.link.accept b = { rxbuf := frame, expected := some frame.length }) :
    ∃ t, exec (.ingest b) s = .next t ∧ t.result = some .done ∧ t.link = { rxbuf := [], expected := none } ∧ timerSideKept s t ∧
      t.sent = s.sent ++ replyTo frame := by
  have run := exec_ingest_complete free connected quiet (b := b) (by rw [accept])
  rw [accept] at run
  exact ⟨_, run, rfl, rfl, ⟨rfl, State.emitted_irqNotices _ _, State.emitted_advisories _ _⟩, State.emitted_sent _ _⟩

/-- Settles O41: the reply is `replyTo` of the whole frame, whose command byte stood in the buffer before the last byte. -/
theorem completingByteEmitsTheReply : Obligations.CompletingByteEmitsTheReply := by
  intro s b free connected quiet long last
  obtain ⟨t, run, result, link, timer, sent⟩ := exec_ingest_replies free connected quiet (Link.accept_last long last b)
  have command : (s.link.rxbuf ++ [b])[2]? = s.link.rxbuf[2]? := List.getElem?_append_left (by omega)
  rw [← command]
  exact ⟨t, run, result, link, timer, fun scan => replyTo_scan scan ▸ sent, fun echo => replyTo_echo echo ▸ sent⟩

/-- Settles O44: the one guard of RESET_LINK, and what it leaves past it. -/
theorem resetLinkEmptiesTheBuffer : Obligations.ResetLinkEmptiesTheBuffer :=
  fun _ => ⟨fun free => ⟨_, exec_resetLink_free free, rfl, rfl, rfl, rfl, rfl, rfl, rfl⟩, fun within => linkOp_reentrant within _⟩

/-- With no sink connected a frame cannot end (R215). -/
theorem finishFrameWith_absent {run : Caller} {s : State} (absent : s.sinkConnected = false) (out : List Byte) :
    finishFrameWith run s out = .refused .sinkAbsent := by
  rw [finishFrameWith, absent]; rfl

/-- Settles O49: all three end a frame, which needs a sink. -/
theorem completingWithoutASinkIsRefused : Obligations.CompletingWithoutASinkIsRefused := by
  refine fun s b absent => ⟨fun free long last => ?_, fun complete scan => ?_, fun complete echo => ?_⟩
  · refine (ingestWith_complete free ?_).trans (finishFrameWith_absent (s := s.withLink (s.link.accept b)) absent _)
    rw [Link.accept_last long last]
  · have ready := (Link.scanReady_iff s.link).2 ⟨complete, (Link.command_eq_scan _).2 scan⟩
    exact (frameScanWith_ready ready).trans (finishFrameWith_absent absent _)
  · have ready := (Link.echoReady_iff s.link).2 ⟨complete, fun scan => echo ((Link.command_eq_scan _).1 scan)⟩
    exact (frameEchoWith_ready ready).trans (finishFrameWith_absent absent _)

/-- Settles O50: the operand is `Link.scanReady_iff` and `Link.echoReady_iff`, and each premise denies one half of it. -/
theorem handlersWithoutTheirFrameAreRefused : Obligations.HandlersWithoutTheirFrameAreRefused := by
  refine fun s => ⟨fun missing => if_neg fun ready => ?_, fun missing => if_neg fun ready => ?_⟩
  · obtain ⟨complete, scan⟩ := (Link.scanReady_iff _).1 ready
    exact missing.elim (· complete) (· ((Link.command_eq_scan _).1 scan))
  · obtain ⟨complete, echo⟩ := (Link.echoReady_iff _).1 ready
    exact missing.elim (· complete) (fun scan => echo ((Link.command_eq_scan _).2 scan))

/-! ### The stream decoder (R72) -/

/-- Once the length byte is there, later bytes do not change the total (R71). -/
theorem frameTotal_append {bs : List Byte} {n : Nat} (known : frameTotal bs = some n) (rest : List Byte) :
    frameTotal (bs ++ rest) = some n := by
  obtain ⟨b, there, _⟩ := Option.map_eq_some_iff.1 known
  obtain ⟨long, _⟩ := List.getElem?_eq_some_iff.1 there
  rw [← known, frameTotal, List.getElem?_append_left long, frameTotal]

/-- Before the length byte the total is unknown (R72). -/
theorem frameTotal_eq_none {bs : List Byte} : frameTotal bs = none ↔ bs.length ≤ 3 := by simp [frameTotal, lengthIndex]

/-- No total is below 6 (R71). -/
theorem frameTotal_ge {bs : List Byte} {n : Nat} (known : frameTotal bs = some n) : 6 ≤ n := by
  obtain ⟨b, _, rfl⟩ := Option.map_eq_some_iff.1 known
  exact Nat.le_add_left _ _

/-- A stream holds no whole frame exactly while it is shorter than the total, where that is known. -/
theorem splitFrame_eq_none {bs : List Byte} : splitFrame bs = none ↔ ∀ n, frameTotal bs = some n → bs.length < n := by
  unfold splitFrame
  cases total : frameTotal bs with
  | none => simp
  | some n => simp

/-- A frame that is as long as its total is cut off whole, whatever follows it. -/
theorem splitFrame_append {frame : List Byte} (whole : frameTotal frame = some frame.length) (rest : List Byte) :
    splitFrame (frame ++ rest) = some (frame, rest) := by
  unfold splitFrame
  rw [frameTotal_append whole rest]
  simp

/-- A frame that is the whole stream is as long as its total. -/
theorem frameTotal_of_splitFrame {frame : List Byte} (whole : splitFrame frame = some (frame, [])) :
    frameTotal frame = some frame.length := by
  unfold splitFrame at whole
  cases total : frameTotal frame with
  | none => rw [total] at whole; cases whole
  | some n =>
    simp only [total, Option.ite_none_right_eq_some, Option.some.injEq, Prod.mk.injEq, List.drop_eq_nil_iff] at whole
    rw [Nat.le_antisymm whole.1 whole.2.2]

theorem cutFrames_none {bs : List Byte} (fuel : Nat) (incomplete : splitFrame bs = none) : cutFrames fuel bs = ([], bs) := by
  cases fuel with
  | zero => rfl
  | succ fuel => simp [cutFrames, incomplete]

theorem cutFrames_append {frame : List Byte} (fuel : Nat) (whole : frameTotal frame = some frame.length) (rest : List Byte) :
    cutFrames (fuel + 1) (frame ++ rest) = (frame :: (cutFrames fuel rest).1, (cutFrames fuel rest).2) := by
  simp [cutFrames, splitFrame_append whole]

/-- One byte more than an incomplete frame is one still, or is the whole frame. -/
theorem splitFrame_snoc {bs : List Byte} (incomplete : splitFrame bs = none) (b : Byte) :
    splitFrame (bs ++ [b]) = none ∨ frameTotal (bs ++ [b]) = some (bs ++ [b]).length := by
  have size : (bs ++ [b]).length = bs.length + 1 := List.length_append
  cases total : frameTotal bs with
  | none =>
    have short := frameTotal_eq_none.1 total
    exact .inl (splitFrame_eq_none.2 fun n known => by have := frameTotal_ge known; omega)
  | some n =>
    have below := splitFrame_eq_none.1 incomplete n total
    have known := frameTotal_append total [b]
    rcases Nat.lt_or_eq_of_le (Nat.succ_le_of_lt below) with still | whole
    · refine .inl (splitFrame_eq_none.2 fun m hm => ?_)
      obtain rfl : n = m := Option.some.inj (known.symm.trans hm)
      omega
    · exact .inr (by rw [known, size, ← whole])

/-! ### LINK over a byte stream -/

theorem timerSideKept_trans {s t u : State} (first : timerSideKept s t) (second : timerSideKept t u) : timerSideKept s u :=
  ⟨second.1.trans first.1, second.2.1.trans first.2.1, second.2.2.trans first.2.2⟩

/-- LINK holding the bytes of a frame not complete yet: what it expects is the decoder's total (R162, R163). -/
def Link.holding (bs : List Byte) : Link := { rxbuf := bs, expected := frameTotal bs }

/-- The append with its latch computes the total of the longer buffer (R161, R162). -/
theorem Link.accept_holding (bs : List Byte) (b : Byte) : (Link.holding bs).accept b = Link.holding (bs ++ [b]) := by
  by_cases fourth : bs.length = 3
  · rw [Link.accept_fourth fourth]
    simp [Link.holding, frameTotal, lengthIndex, frameOverhead, fourth]
  · rw [Link.accept_other fourth]
    have same : (bs ++ [b])[3]? = bs[3]? := by
      rcases Nat.lt_or_gt_of_ne fourth with short | long
      · rw [List.getElem?_eq_none (by simp; omega), List.getElem?_eq_none (by omega)]
      · exact List.getElem?_append_left long
    simp [Link.holding, frameTotal, lengthIndex, same]

/-- The simulation (R72, R166): from a LINK that holds an incomplete frame, a byte stream is answered frame by frame as the decoder cuts
the held bytes and the stream, and LINK then holds what the decoder has left. -/
theorem execAll_receives {s : State} {held : List Byte} {fuel : Nat} (bs : List Byte) (free : Callback.onByte ∉ s.inside)
    (connected : s.sinkConnected = true) (quiet : s.sinkQuiet) (link : s.link = Link.holding held) (incomplete : splitFrame held = none)
    (enough : bs.length ≤ fuel) :
    ∃ t, execAll (receives bs) s = .next t ∧ timerSideKept s t ∧
      t.sent = s.sent ++ (cutFrames fuel (held ++ bs)).1.flatMap replyTo ∧ t.link = Link.holding (cutFrames fuel (held ++ bs)).2 := by
  induction bs generalizing s held fuel with
  | nil =>
    rw [List.append_nil, cutFrames_none fuel incomplete]
    exact ⟨s, rfl, ⟨rfl, rfl, rfl⟩, (List.append_nil _).symm, link⟩
  | cons b bs ih =>
    have accept : s.link.accept b = Link.holding (held ++ [b]) := by rw [link, Link.accept_holding]
    have later : ∀ {t}, exec (.ingest b) s = .next t → execAll (receives (b :: bs)) s = execAll (receives bs) t ∧
        Callback.onByte ∉ t.inside ∧ t.sinkConnected = true ∧ t.sinkQuiet := by
      intro t run
      have kept := (exec_ports run).1
      exact ⟨by simp only [receives, List.map_cons, execAll, run], kept.inside.symm ▸ free, kept.sink.trans connected,
        State.sinkQuiet_of_suffix quiet kept.onByteCalls⟩
    rw [List.length_cons] at enough
    rcases splitFrame_snoc incomplete b with still | whole
    · have run := exec_ingest_open free (b := b) (by rw [accept]; exact fun e => Nat.lt_irrefl _ (splitFrame_eq_none.1 still _ e))
      rw [accept] at run
      obtain ⟨rest, freeT, connectedT, quietT⟩ := later run
      have sim := ih (fuel := fuel) freeT connectedT quietT (held := held ++ [b]) rfl still (by omega)
      rw [List.append_assoc, List.singleton_append, ← rest] at sim
      exact sim
    · obtain ⟨t, run, _, linkT, timerT, sentT⟩ := exec_ingest_replies free connected quiet (accept.trans (congrArg _ whole))
      obtain ⟨rest, freeT, connectedT, quietT⟩ := later run
      obtain ⟨fuel, rfl⟩ := Nat.exists_eq_succ_of_ne_zero (n := fuel) (by omega)
      obtain ⟨u, runU, timerU, sentU, linkU⟩ := ih (fuel := fuel) freeT connectedT quietT (held := []) linkT rfl (by omega)
      have cut := cutFrames_append fuel whole bs
      rw [List.append_assoc, List.singleton_append] at cut
      rw [rest, cut, List.flatMap_cons, ← List.append_assoc, ← sentT]
      exact ⟨u, runU, timerSideKept_trans timerT timerU, sentU, linkU⟩

/-- Settles O48: the simulation `execAll_receives` from an empty LINK. -/
theorem byteStreamIsAnsweredFrameByFrame : Obligations.ByteStreamIsAnsweredFrameByFrame := by
  intro s bs free connected quiet empty
  obtain ⟨t, run, timer, sent, link⟩ := execAll_receives bs free connected quiet (held := []) empty rfl (Nat.le_refl _)
  exact ⟨t, run, timer, sent, by rw [link]; rfl, by rw [link]; rfl⟩

/-- One frame cut short is no whole frame. -/
theorem splitFrame_take {frame : List Byte} (whole : frameTotal frame = some frame.length) {n : Nat} (proper : n < frame.length) :
    splitFrame (frame.take n) = none := by
  refine splitFrame_eq_none.2 fun m known => ?_
  have total := frameTotal_append known (frame.drop n)
  rw [List.take_append_drop, whole, Option.some.injEq] at total
  rw [List.length_take]; omega

/-- Settles O47: the simulation `execAll_receives` on the frame cut short, of which the decoder cuts nothing off, and on the whole frame, of which it
leaves nothing. -/
theorem oneFrameMakesExactlyOneReply : Obligations.OneFrameMakesExactlyOneReply := by
  intro s f free connected quiet empty split
  have whole := frameTotal_of_splitFrame split
  constructor
  · intro n proper
    obtain ⟨t, run, _, sent, link⟩ := execAll_receives (f.take n) free connected quiet (held := []) empty rfl (Nat.le_refl _)
    rw [List.nil_append, cutFrames_none _ (splitFrame_take whole proper)] at sent link
    exact ⟨t, run, sent.trans (List.append_nil _), by rw [link]; rfl⟩
  · obtain ⟨t, run, timer, sent, link⟩ :=
      execAll_receives (fuel := f.length + 1) f free connected quiet (held := []) empty rfl (Nat.le_succ _)
    have cut := cutFrames_append f.length whole []
    rw [List.append_nil, cutFrames_none _ (show splitFrame [] = none from rfl)] at cut
    rw [List.nil_append, cut, List.flatMap_singleton] at sent
    rw [List.nil_append, cut] at link
    exact ⟨t, run, link, timer, fun scan => replyTo_scan scan ▸ sent, fun echo => replyTo_echo echo ▸ sent⟩

end Sys2Proof.Machine
end

section
/-! PROOFS. The two units beside each other (R2) and re-entrancy (R54): an operation whose consumers call nothing sees neither the other
unit nor the other unit's callbacks, and what a consumer calls runs at the point of its callback. -/

namespace Sys2Proof.Machine

/-! ### Operations whose consumers call nothing -/

/-- Two outcomes alike but for a change of the next state. -/
def mapNext (f : State → State) : Host.Outcome State Fault Refusal → Host.Outcome State Fault Refusal
  | .next t => .next (f t)
  | .fault r => .fault r
  | .refused r => .refused r

theorem outcomeWithLink_eq (l : Link) (o : Host.Outcome State Fault Refusal) : outcomeWithLink l o = mapNext (·.withLink l) o := by
  cases o <;> rfl

theorem outcomeWithTimer_eq (x : Timer) (o : Host.Outcome State Fault Refusal) : outcomeWithTimer x o = mapNext (·.withTimer x) o := by
  cases o <;> rfl

theorem outcomeInside_eq (cs : List Callback) (o : Host.Outcome State Fault Refusal) : outcomeInside cs o = mapNext (·.within cs) o := by
  cases o <;> rfl

/-- A change of the state in what no operation of TIMER reads or writes. -/
structure TimerBlind (f : State → State) : Prop where
  timer : ∀ s, (f s).timer = s.timer
  irqCalls : ∀ s, (f s).irqCalls = s.irqCalls
  withTimer : ∀ s t, (f s).withTimer t = f (s.withTimer t)
  notice : ∀ s out, (f s).popIrq.output out = f (s.popIrq.output out)
  answer : ∀ s r, (f s).answer r = f (s.answer r)

theorem timerBlind_withLink (l : Link) : TimerBlind (·.withLink l) :=
  ⟨fun _ => rfl, fun _ => rfl, fun _ _ => rfl, fun _ _ => rfl, fun _ _ => rfl⟩

theorem timerBlind_within (cs : List Callback) : TimerBlind (·.within cs) :=
  ⟨fun _ => rfl, fun _ => rfl, fun _ _ => rfl, fun _ _ => rfl, fun _ _ => rfl⟩

theorem State.notified_changed {s : State} {t : Timer} (h : t.irq ≠ s.timer.irq) :
    s.notified t = (s.withTimer t).popIrq.output [.irq t.irq] := if_neg h

theorem TimerBlind.notified {f : State → State} (blind : TimerBlind f) (s : State) (t : Timer) : (f s).notified t = f (s.notified t) := by
  by_cases line : t.irq = s.timer.irq
  · rw [State.notified_same line, State.notified_same (by rw [blind.timer]; exact line), blind.withTimer]
  · rw [State.notified_changed line, State.notified_changed (by rw [blind.timer]; exact line), blind.withTimer, blind.notice]

/-- A TIMER operation whose consumer calls nothing does the same after such a change, where its own guard answers the same. -/
theorem exec_timerBlind {f : State → State} (blind : TimerBlind f) {i : Instr} {s : State} (unit : unitOf i = .timer) (quiet : s.irqQuiet)
    (guard : Callback.irqChange ∈ (f s).inside ↔ Callback.irqChange ∈ s.inside) : exec i (f s) = mapNext f (exec i s) := by
  by_cases within : Callback.irqChange ∈ s.inside
  · rw [exec_eq_callOne, exec_eq_callOne, callOne_reentrant (.inl ⟨unit, within⟩), callOne_reentrant (.inl ⟨unit, guard.2 within⟩)]; rfl
  · have free : Callback.irqChange ∉ (f s).inside := fun c => within (guard.1 c)
    by_cases refused : i = .tick ∧ s.timer.tick = none
    · obtain ⟨rfl, counted⟩ := refused
      rw [exec_tick_none within counted, exec_tick_none free (by rw [blind.timer]; exact counted)]; rfl
    · have defined : i = .tick → s.timer.tick ≠ none := fun tick counted => refused ⟨tick, counted⟩
      rw [exec_timer_quiet unit defined within (fun _ => quiet),
        exec_timer_quiet unit (by rw [blind.timer]; exact defined) free (fun _ => by rw [State.irqQuiet, blind.irqCalls]; exact quiet),
        blind.timer, blind.notified, blind.answer]
      rfl

/-- A change of the state in what no operation of LINK reads or writes. -/
structure LinkBlind (f : State → State) : Prop where
  link : ∀ s, (f s).link = s.link
  sink : ∀ s, (f s).sinkConnected = s.sinkConnected
  onByteCalls : ∀ s, (f s).onByteCalls = s.onByteCalls
  withLink : ∀ s l, (f s).withLink l = f (s.withLink l)
  emitted : ∀ s out, (f s).emitted out = f (s.emitted out)
  answer : ∀ s r, (f s).answer r = f (s.answer r)

theorem linkBlind_withTimer (x : Timer) : LinkBlind (·.withTimer x) :=
  ⟨fun _ => rfl, fun _ => rfl, fun _ => rfl, fun _ _ => rfl, fun _ _ => rfl, fun _ _ => rfl⟩

theorem linkBlind_within (cs : List Callback) : LinkBlind (·.within cs) :=
  ⟨fun _ => rfl, fun _ => rfl, fun _ => rfl, fun _ _ => rfl, fun _ _ => rfl, fun _ _ => rfl⟩

/-- The end of a frame, its sink quiet, does the same after such a change (R166, R215). -/
theorem finishFrameWith_linkBlind {f : State → State} (blind : LinkBlind f) {s : State} (quiet : s.sinkQuiet) (out : List Byte) :
    finishFrameWith calls (f s) out = mapNext f (finishFrameWith calls s out) := by
  cases sink : s.sinkConnected with
  | false => rw [finishFrameWith_absent sink, finishFrameWith_absent ((blind.sink s).trans sink)]; rfl
  | true =>
    rw [finishFrameWith_quiet calls_idle sink quiet,
      finishFrameWith_quiet calls_idle ((blind.sink s).trans sink) (by rw [blind.onByteCalls]; exact quiet),
      blind.emitted, blind.withLink, blind.answer]
    rfl

/-- A LINK operation whose consumer calls nothing does the same after such a change, where its own guard answers the same. -/
theorem exec_linkBlind {f : State → State} (blind : LinkBlind f) {i : Instr} {s : State} (unit : unitOf i = .link) (quiet : s.sinkQuiet)
    (guard : Callback.onByte ∈ (f s).inside ↔ Callback.onByte ∈ s.inside) : exec i (f s) = mapNext f (exec i s) := by
  have guarded : ∀ k k', k' = mapNext f k → linkOp (f s) k' = mapNext f (linkOp s k) := by
    rintro k _ rfl
    by_cases within : Callback.onByte ∈ s.inside
    · rw [linkOp_reentrant within, linkOp_reentrant (guard.2 within)]; rfl
    · rw [linkOp_free within, linkOp_free (fun c => within (guard.1 c))]
  have handler : ∀ (ready : Bool) out, (if ready then finishFrameWith calls (f s) out else .refused .noSuchCompletedFrame) =
      mapNext f (if ready then finishFrameWith calls s out else .refused .noSuchCompletedFrame) := by
    intro ready out
    cases ready with
    | true => exact finishFrameWith_linkBlind blind quiet out
    | false => rfl
  cases i <;> simp only [unitOf, reduceCtorEq] at unit
  case ingest b =>
    refine (ingestWith_eq calls b (f s)).trans (Eq.trans (guarded _ _ ?_) (congrArg (mapNext f) (ingestWith_eq calls b s).symm))
    rw [blind.link, blind.withLink, blind.answer]
    split
    · exact finishFrameWith_linkBlind blind (s := s.withLink (s.link.accept b)) quiet _
    · rfl
  case frameScan =>
    show frameScanWith calls (f s) = _
    rw [frameScanWith, blind.link]
    exact handler _ _
  case frameEcho =>
    show frameEchoWith calls (f s) = _
    rw [frameEchoWith, blind.link]
    exact handler _ _
  case resetLink => exact guarded _ _ (by rw [blind.link, blind.withLink, blind.answer]; rfl)

/-- A TIMER operation that answers a next state was not re-entrant, and no refused tick. -/
theorem exec_timer_guards {i : Instr} {s t : State} (unit : unitOf i = .timer) (run : exec i s = .next t) :
    Callback.irqChange ∉ s.inside ∧ (i = .tick → s.timer.tick ≠ none) := by
  have free : Callback.irqChange ∉ s.inside := fun within => by
    rw [exec_eq_callOne, callOne_reentrant (.inl ⟨unit, within⟩)] at run; cases run
  refine ⟨free, ?_⟩
  rintro rfl counted
  rw [exec_tick_none free counted] at run; cases run

/-- What a TIMER operation leaves of LINK's side when its consumer calls nothing (R2). -/
theorem exec_timer_linkSide {i : Instr} {s t : State} (unit : unitOf i = .timer) (quiet : s.irqQuiet) (run : exec i s = .next t) :
    linkSideKept s t := by
  obtain ⟨free, defined⟩ := exec_timer_guards unit run
  rw [exec_timer_quiet unit defined free (fun _ => quiet)] at run
  cases run
  exact linkSideKept_notified_answer _ _ _

/-- Settles O54: neither unit's operations see a change of the other's variables (`exec_timerBlind`, `exec_linkBlind`), and neither
touches the other's side. -/
theorem timerAndLinkShareNoState : Obligations.TimerAndLinkShareNoState := by
  refine ⟨fun i s l unit quiet => ⟨?_, fun _ run => exec_timer_linkSide unit quiet run⟩,
    fun i s x unit quiet => ⟨?_, fun _ run => (exec_link_timerSide unit quiet run).1⟩⟩
  · rw [outcomeWithLink_eq]; exact exec_timerBlind (timerBlind_withLink l) unit quiet Iff.rfl
  · rw [outcomeWithTimer_eq]; exact exec_linkBlind (linkBlind_withTimer x) unit quiet Iff.rfl

/-! ### What a consumer calls runs at the point of its callback (R54) -/

theorem andThen_assoc (o : Host.Outcome State Fault Refusal) (f g : State → Host.Outcome State Fault Refusal) :
    andThen (andThen o f) g = andThen o (fun s => andThen (f s) g) := by cases o <;> rfl

/-- The same state with a quiet consumer of the next notice. -/
def State.hushed (s : State) : State := { s with irqCalls := [] :: s.irqCalls.tail }

/-- A TIMER operation against the same with a quiet consumer: where the line changes, what the consumer calls runs after the notice and
before the operation returns. -/
theorem exec_timer_notices {i : Instr} {s t : State} (unit : unitOf i = .timer) (run : exec i s.hushed = .next t) :
    exec i s =
      (if t.irq = s.irq then .next { t with irqCalls := s.irqCalls }
       else
        andThen (execCalls (s.irqCalls.headD []) { t with inside := .irqChange :: s.inside, result := s.result })
          (fun u => .next { u with inside := s.inside, result := t.result })) := by
  obtain ⟨freeHushed, definedHushed⟩ := exec_timer_guards unit run
  have free : Callback.irqChange ∉ s.inside := freeHushed
  have defined : i = .tick → s.timer.tick ≠ none := definedHushed
  by_cases line : (timerAfter s.timer i).irq = s.timer.irq
  · have same := run.symm.trans (exec_timer_same (s := s.hushed) unit defined free line)
    cases same
    rw [exec_timer_same unit defined free line]
    exact (if_pos line).symm
  · have notified := run.symm.trans (exec_timer_quiet (s := s.hushed) unit defined free (fun _ => rfl))
    have changed := State.notified_changed (s := s.hushed) line
    obtain rfl := (Host.Outcome.next.inj notified).trans (congrArg (State.answer · _) changed)
    refine Eq.trans ?_ (if_neg line).symm
    rw [exec_eq_timerOp unit defined, timerOp, timerOpWith_ok free, List.map_nil, State.output_nil, setTimer, if_neg line, notifyIrq,
      insideCallback, calls_eq_execCalls _ (by simp), andThen_assoc]
    rfl

/-- The INGEST of a completing byte: each byte of the reply, and what its consumer calls, before the next, and then LINK is cleared. -/
theorem exec_ingest_emission {b : Byte} {s : State} (free : Callback.onByte ∉ s.inside) (connected : s.sinkConnected = true)
    (long : 4 ≤ s.link.rxbuf.length) (last : s.link.expected = some (s.link.rxbuf.length + 1)) :
    exec (.ingest b) s =
      andThen (emission (replyTo (s.link.rxbuf ++ [b])) { s with link := { s.link with rxbuf := s.link.rxbuf ++ [b] } })
        (fun t => .next { t with link := { rxbuf := [], expected := none }, result := some .done }) := by
  have accept : s.link.accept b = { s.link with rxbuf := s.link.rxbuf ++ [b] } := Link.accept_other (by omega) b
  have complete : (s.link.accept b).expected = some (s.link.accept b).rxbuf.length := by rw [Link.accept_last long last]
  refine (ingestWith_complete free complete).trans ?_
  rw [accept, finishFrameWith, State.withLink_sinkConnected, if_pos connected, emitAll_eq_emission]
  rfl

/-- Settles O55: the two guards, the two points at which a consumer's calls run, and that a quiet operation does not see the running
callbacks of the other unit. -/
theorem callbacksMayOperateOnlyTheOtherUnit : Obligations.CallbacksMayOperateOnlyTheOtherUnit := by
  refine ⟨fun i s unit within => ?_, fun b s within => ⟨linkOp_reentrant within _, linkOp_reentrant within _⟩,
    fun _ _ _ unit run => exec_timer_notices unit run, fun _ _ free connected long last => exec_ingest_emission free connected long last,
    fun i s unit free quiet => ?_, fun i s unit free quiet => ?_⟩
  · rw [exec_eq_callOne, callOne_reentrant (.inl ⟨unit, within⟩), unit]; rfl
  · rw [outcomeInside_eq]
    exact exec_timerBlind (timerBlind_within s.inside) (s := s.within []) unit quiet (iff_of_false free (by simp))
  · rw [outcomeInside_eq]
    exact exec_linkBlind (linkBlind_within s.inside) (s := s.within []) unit quiet (iff_of_false free (by simp))

end Sys2Proof.Machine
end

section
/-! PROOFS. The generic register bank (40_register_bank.md), for any layout: a single field in its access mode (R91, R98), a register of
any number of fields (R92, R94), and reset (R96). -/

namespace Sys2Proof.Machine

/-! ### A field without hooks (R91) -/

/-- Above a value's range there are no bits. -/
theorem getLsbD_eq_false_of_lt {v : Word} {width k : Nat} (range : v.toNat < 2 ^ width) (above : width ≤ k) : v.getLsbD k = false :=
  Nat.testBit_lt_two_pow (Nat.lt_of_lt_of_le range (Nat.pow_le_pow_right (by decide) above))

/-- The bits of a field's slice (R63). -/
theorem BankField.slice_getLsbD {σ : Type} {f : BankField σ} (wf : f.wf = true) (w : Word) {k : Nat} (h : k < f.width) :
    (f.slice w).getLsbD k = w.getLsbD (f.lo + k) := by
  simp only [BankField.wf, Bool.and_eq_true, decide_eq_true_eq] at wf
  have bound : k < 32 := by omega
  rw [BankField.slice, BitVec.getLsbD_and, BitVec.getLsbD_ushiftRight, lowMask, BitVec.getLsbD_ofNat, Nat.testBit_two_pow_sub_one]
  simp [h, bound]

/-- What a mode makes of one stored bit and the bit written (R91). -/
def AccessMode.storedBit : AccessMode → Bool → Bool → Bool
  | .readWrite, _, written => written
  | .readOnly, stored, _ => stored
  | .writeOneToClear, stored, written => stored && !written
  | .writeZeroToClear, stored, written => stored && written

/-- The default store works bit by bit (R91). -/
theorem defaultStore_getLsbD (mode : AccessMode) (stored s : Word) {k : Nat} (bound : k < 32) :
    (defaultStore mode stored s).getLsbD k = mode.storedBit (stored.getLsbD k) (s.getLsbD k) := by
  cases mode with
  | readWrite => rfl
  | readOnly => rfl
  | writeOneToClear => simp [defaultStore, AccessMode.storedBit, bound]
  | writeZeroToClear => exact BitVec.getLsbD_and

/-- The bits of a stored value put at its place in the word (R92): `k` stands for a bit of the field. -/
theorem shiftLeft_getLsbD_field (v : Word) {lo k : Nat} (bound : lo + k < 32) : (v <<< lo).getLsbD (lo + k) = v.getLsbD k := by
  rw [BitVec.getLsbD_shiftLeft, Nat.add_sub_cancel_left]
  simp [bound]

/-- Settles O58: the write stores `defaultStore` of the slice, the read puts it at the field's place, and both are taken bit by bit. -/
theorem fieldReadsBackAsItsAccessModeSays : Obligations.FieldReadsBackAsItsAccessModeSays := by
  intro σ u f off w wf noWrite noRead range
  obtain ⟨rest, values⟩ := BankField.write_plain noWrite off w u
  have stored := (values (off, f.lo)).trans (if_pos rfl)
  have storedRange : ((f.write off w u).value (off, f.lo)).toNat < 2 ^ f.width := by
    rw [stored]; exact defaultStore_lt range (BankField.slice_lt wf w)
  have placed := wf
  simp only [BankField.wf, Bool.and_eq_true, decide_eq_true_eq] at placed
  refine ⟨f.write off w u, (f.write off w u).value (off, f.lo) <<< f.lo, ?_, rest, ?_, fun j outside => ?_, fun k within => ?_⟩
  · simp [bankWrite, BankRegister.write, writeFields]
  · simp [bankRead, readFields, BankField.read, noRead]
  · rw [BitVec.getLsbD_shiftLeft]
    rcases outside with below | above
    · simp [below]
    · rw [getLsbD_eq_false_of_lt storedRange (by omega), Bool.and_false]
  · rw [shiftLeft_getLsbD_field _ (by omega), stored, defaultStore_getLsbD _ _ _ (by omega), BankField.slice_getLsbD wf w within]
    cases f.mode <;> rfl

/-! ### Registers of several fields (R92, R94) -/

/-- The fields of a well-formed register, none with a write hook, on a write: each by its mode, from what it held, and nothing else. -/
theorem writeFields_plain {σ : Type} {l : List (BankField σ)} (wf : fieldsWf l = true) (plain : ∀ f ∈ l, f.writeHook = none) (off w : Word)
    (u : BankUnit σ) :
    (writeFields off w l u).rest = u.rest ∧
      (∀ f ∈ l, (writeFields off w l u).value (off, f.lo) = defaultStore f.mode (u.value (off, f.lo)) (f.slice w)) ∧
      ∀ k, (∀ f ∈ l, (off, f.lo) ≠ k) → (writeFields off w l u).value k = u.value k := by
  induction l generalizing u with
  | nil => exact ⟨rfl, by simp, fun _ _ => rfl⟩
  | cons f l ih =>
    obtain ⟨_, apart, wfRest⟩ := fieldsWf_cons wf
    rw [List.forall_mem_cons] at plain
    obtain ⟨rest, values⟩ := BankField.write_plain plain.1 off w u
    obtain ⟨restL, fieldsL, otherL⟩ := ih wfRest plain.2 (f.write off w u)
    refine ⟨restL.trans rest, List.forall_mem_cons.2 ⟨?_, fun g hg => ?_⟩, fun k other => ?_⟩
    · have last : ∀ g ∈ l, (off, g.lo) ≠ (off, f.lo) := fun g hg same => apart g hg (Prod.ext_iff.1 same).2.symm
      rw [writeFields, otherL _ last, values, if_pos rfl]
    · rw [writeFields, fieldsL g hg, values, if_neg (fun same => apart g hg (Prod.ext_iff.1 same).2)]
    · rw [List.forall_mem_cons] at other
      rw [writeFields, otherL k other.2, values, if_neg other.1]

theorem bankRead_some {σ : Type} {bank : Bank σ} {off : Word} {r : BankRegister σ} (found : bank.lookup off = some r) (u : BankUnit σ) :
    bankRead bank off u = .ok (readFields off r.fields 0 u) := by rw [bankRead, found]

theorem bankWrite_some {σ : Type} {bank : Bank σ} {off : Word} {r : BankRegister σ} (found : bank.lookup off = some r) (w : Word)
    (u : BankUnit σ) : bankWrite bank off w u = .ok (r.write off w u) := by rw [bankWrite, found]

theorem bankRead_none {σ : Type} {bank : Bank σ} {off : Word} (missing : bank.lookup off = none) (u : BankUnit σ) :
    bankRead bank off u = .error off := by rw [bankRead, missing]

theorem bankWrite_none {σ : Type} {bank : Bank σ} {off : Word} (missing : bank.lookup off = none) (w : Word) (u : BankUnit σ) :
    bankWrite bank off w u = .error off := by rw [bankWrite, missing]

/-- A register's write is its fields' writes and then its post-write hook, where it has one (R94). -/
theorem BankRegister.write_eq {σ : Type} (r : BankRegister σ) (off w : Word) (u : BankUnit σ) :
    r.write off w u = (r.postWrite.getD id) (writeFields off w r.fields u) := by
  unfold BankRegister.write; cases r.postWrite <;> rfl

/-- A register of a well-formed bank on a write keeps R90's range, where the hooks do. -/
theorem BankRegister.write_inRange {σ : Type} {bank : Bank σ} (wf : bankWf bank = true) (hooks : hooksKeepRange bank)
    {e : Word × BankRegister σ} (he : e ∈ bank) (w : Word) {u : BankUnit σ} (range : BankUnit.InRange bank u) :
    BankUnit.InRange bank (e.2.write e.1 w u) := by
  have fields := writeFields_inRange wf hooks he w (fun _ hf => hf) range
  unfold BankRegister.write
  split
  · case h_1 h eq => exact (hooks e he).2 h eq _ fields
  · exact fields

/-- Settles O59: a read and a write are folds over the fields; where no field has a write hook the fold is `writeFields_plain`; and each
field, and the post-write hook, keeps R90's range. -/
theorem writeHooksRunOnEveryWrite : Obligations.WriteHooksRunOnEveryWrite := by
  refine fun σ u bank off w => ⟨fun r found => ⟨fieldsWf_pairwise, ?_, ?_, fun wf plain noPost => ?_⟩,
    fun wf hooks range => ⟨fun t run => ?_, fun v t run => ?_⟩, fun missing => ⟨bankRead_none missing u, bankWrite_none missing w u⟩⟩
  · rw [bankRead_some found, readFields_eq_foldl]
    refine congrArg (fun step => Except.ok (r.fields.foldl step (0, u))) (funext fun a => funext fun f => ?_)
    unfold BankField.read
    cases f.readHook <;> rfl
  · rw [bankWrite_some found, BankRegister.write_eq, writeFields_eq_foldl]
    rfl
  · have written : r.write off w u = writeFields off w r.fields u := by rw [BankRegister.write_eq, noPost]; rfl
    exact ⟨_, bankWrite_some found w u, written ▸ writeFields_plain wf plain off w u⟩
  · cases found : bank.lookup off with
    | none => rw [bankWrite_none found] at run; cases run
    | some r =>
      rw [bankWrite_some found] at run; cases run
      exact BankRegister.write_inRange wf hooks (bank_lookup_mem found) w range
  · cases found : bank.lookup off with
    | none => rw [bankRead_none found] at run; cases run
    | some r =>
      rw [bankRead_some found, Except.ok.injEq] at run
      have kept := readFields_inRange hooks (bank_lookup_mem found) (l := r.fields) (acc := 0) (fun _ hf => hf) range
      rwa [run] at kept

/-! ### Reset (R96) -/

/-- A reset leaves every field of a well-formed bank at its reset value: the registers after its own do not touch it. -/
theorem bankReset_value {σ : Type} {bank : Bank σ} (wf : bankWf bank = true) (u : BankUnit σ) :
    ∀ e ∈ bank, ∀ f ∈ e.2.fields, (bankReset bank u).value (e.1, f.lo) = f.reset := by
  induction bank generalizing u with
  | nil => simp
  | cons e bank ih =>
    obtain ⟨wfRegister, apart, wfRest⟩ := bankWf_cons wf
    refine List.forall_mem_cons.2 ⟨fun f hf => ?_, fun d hd f hf => ih wfRest _ d hd f hf⟩
    have later : ∀ d ∈ bank, ∀ g ∈ d.2.fields, (d.1, g.lo) ≠ (e.1, f.lo) := fun d hd g _ same =>
      apart d hd (Prod.ext_iff.1 same).1.symm
    rw [bankReset, bankReset_other later, resetFields_value wfRegister u f hf]

/-- Settles O60: a place is a field of the bank, and `bankReset_value` says what it holds, or none, and `bankReset_other` does. -/
theorem bankResetRestoresDeclaredValues : Obligations.BankResetRestoresDeclaredValues := by
  intro σ bank u wf
  have fields := fun u => bankReset_value wf u
  refine ⟨fields u, fun e he f hf => ?_, bankReset_rest bank u, fun k other => bankReset_other other u, fun k => ?_⟩
  · have wfField := fieldsWf_field (bankWf_register wf e he) f hf
    simp only [BankField.wf, Bool.and_eq_true, decide_eq_true_eq] at wfField
    rw [fields u e he f hf]
    exact wfField.2
  · by_cases other : ∀ e ∈ bank, ∀ f ∈ e.2.fields, (e.1, f.lo) ≠ k
    · exact bankReset_other other _
    · push Not at other
      obtain ⟨e, he, f, hf, rfl⟩ := other
      rw [fields _ e he f hf, fields u e he f hf]

end Sys2Proof.Machine
end

section
/-! PROOFS. TIMER's registers as a register bank (R99): with hooks alone, and with the four plain fields. Both layouts are one layout over
a view of TIMER, and what the bank's read and write do is said once, for any such view. -/

namespace Sys2Proof.Machine

/-! ### A view of TIMER in a unit with a bank -/

/-- Two TIMERs agree in the four variables that may be plain stored fields (R99). -/
def AgreeOnPlain (x y : Timer) : Prop :=
  x.updateDisable = y.updateDisable ∧ x.updateRequestSource = y.updateRequestSource ∧
    x.autoReloadPreloadEnable = y.autoReloadPreloadEnable ∧ x.interruptEnable = y.interruptEnable

/-- What the hooks of TIMER's layout owe to `view`, in the units `ok`: a hook that leaves the four variables alone replaces TIMER. -/
structure TimerView (view : BankUnit Timer → Timer) (ok : BankUnit Timer → Prop) : Prop where
  view_rest : ∀ u x, AgreeOnPlain x (view u) → view { u with rest := x } = x
  ok_rest : ∀ u x, ok u → ok { u with rest := x }

/-- A one-bit field at `off` and `lo` that stands for a variable of TIMER as `view` shows it, whether by hooks or as a stored value. -/
structure VariableBit (view : BankUnit Timer → Timer) (ok : BankUnit Timer → Prop) (f : BankField Timer) (off : Word) (lo : Nat)
    (get : Timer → Bool) (put : Bool → Timer → Timer) : Prop where
  lo_eq : f.lo = lo
  read : ∀ u, ok u → f.read off u = (if get (view u) then 1 else 0, u)
  write : ∀ u w, ok u → view (f.write off w u) = put (w.getLsbD lo) (view u) ∧ ok (f.write off w u)

/-- The four fields of a layout over `view` that may be plain (R99). -/
structure FourFields (view : BankUnit Timer → Timer) (ok : BankUnit Timer → Prop) (a b c d : BankField Timer) : Prop where
  updateDisable : VariableBit view ok a 0x00 1 (·.updateDisable) (fun v t => { t with updateDisable := v })
  updateRequestSource : VariableBit view ok b 0x00 2 (·.updateRequestSource) (fun v t => { t with updateRequestSource := v })
  preload : VariableBit view ok c 0x00 7 (·.autoReloadPreloadEnable) (fun v t => { t with autoReloadPreloadEnable := v })
  interruptEnable : VariableBit view ok d 0x0C 0 (·.interruptEnable) (fun v t => { t with interruptEnable := v })

/-! ### The hooks' bits -/

theorem bit_and_lowMask_one (b : Bool) : (if b then 1 else 0 : Word) &&& lowMask 1 = if b then 1 else 0 := by cases b <;> rfl

theorem word_and_lowMask (w : Word) : w &&& lowMask 32 = w := by
  rw [show lowMask 32 = BitVec.allOnes 32 from rfl, BitVec.and_allOnes]

/-- The one bit of a one-bit field's slice (R63). -/
theorem slice_bit {f : BankField Timer} (one : f.width = 1) (w : Word) : (f.slice w).getLsbD 0 = w.getLsbD f.lo := by
  rw [BankField.slice, one, BitVec.getLsbD_and, BitVec.getLsbD_ushiftRight, show (lowMask 1).getLsbD 0 = true from rfl, Bool.and_true,
    Nat.add_zero]

theorem slice_word {f : BankField Timer} (low : f.lo = 0) (whole : f.width = 32) (w : Word) : f.slice w = w := by
  rw [BankField.slice, low, whole, word_and_lowMask]; exact BitVec.ushiftRight_zero w

/-- A one-bit field whose hooks go to TIMER and leave the four variables alone is that bit in any view. -/
theorem variableBit_of_hooks {view : BankUnit Timer → Timer} {ok : BankUnit Timer → Prop} (v : TimerView view ok) {f : BankField Timer}
    {off : Word} {lo : Nat} {get : Timer → Bool} {put : Bool → Timer → Timer} (low : f.lo = lo) (one : f.width = 1)
    (read : ∀ u, f.read off u = ((if get (view u) then 1 else 0) &&& lowMask 1, u))
    (write : ∀ u w, f.write off w u = { u with rest := put ((f.slice w).getLsbD 0) (view u) } ∨
      (f.write off w u = u ∧ put ((f.slice w).getLsbD 0) (view u) = view u))
    (agree : ∀ b t, AgreeOnPlain (put b t) t) : VariableBit view ok f off lo get put where
  lo_eq := low
  read u _ := by rw [read, bit_and_lowMask_one]
  write u w h := by
    rw [← low, ← slice_bit one w]
    rcases write u w with stored | ⟨nothing, same⟩
    · rw [stored]; exact ⟨v.view_rest _ _ (agree _ _), v.ok_rest _ _ h⟩
    · rw [nothing, same]; exact ⟨rfl, h⟩

theorem agreeOnPlain_forcedEvent (t : Timer) : AgreeOnPlain (t.forcedEvent .ascending).1 t := by
  rw [Timer.forcedEvent_ascending]
  by_cases suppressed : t.updateDisable = true
  · rw [if_pos suppressed]; exact ⟨rfl, rfl, rfl, rfl⟩
  · rw [if_neg suppressed]; exact ⟨rfl, rfl, rfl, rfl⟩

section Fields

variable {view : BankUnit Timer → Timer} {ok : BankUnit Timer → Prop} (v : TimerView view ok)

include v

theorem variableBit_varBit (off : Word) (lo : Nat) (get : Timer → Bool) {put : Bool → Timer → Timer}
    (agree : ∀ b t, AgreeOnPlain (put b t) t) : VariableBit view ok (varBit view lo get put) off lo get put :=
  variableBit_of_hooks v rfl rfl (fun _ => rfl) (fun _ _ => .inl rfl) agree

/-- The tag reads 0 and discards what is written (R113). -/
theorem variableBit_tagField : VariableBit view ok tagField 0x0C 8 (fun _ => false) (fun _ t => t) :=
  variableBit_of_hooks v rfl rfl (fun _ => rfl) (fun _ _ => .inr ⟨rfl, rfl⟩) (fun _ _ => ⟨rfl, rfl, rfl, rfl⟩)

/-- Status's bit is the flag, which a written 0 clears (R115). -/
theorem variableBit_statusField :
    VariableBit view ok (statusField view) 0x10 0 (·.interruptFlag) (fun b t => { t with interruptFlag := t.interruptFlag && b }) := by
  refine variableBit_of_hooks v rfl rfl (fun _ => rfl) (fun u w => ?_) (fun _ _ => ⟨rfl, rfl, rfl, rfl⟩)
  have hook : (statusField view).write 0x10 w u =
      if ((statusField view).slice w).getLsbD 0 then u else { u with rest := { view u with interruptFlag := false } } := rfl
  rw [hook]
  cases ((statusField view).slice w).getLsbD 0 with
  | true => exact .inr ⟨rfl, by rw [Bool.and_true]⟩
  | false => exact .inl (by rw [Bool.and_false]; rfl)

/-- EventGeneration's bit reads 0, and a written 1 is the forced event (R117). -/
theorem variableBit_eventgenField :
    VariableBit view ok (eventgenField view) 0x14 0 (fun _ => false) (fun b t => if b then (t.forcedEvent .ascending).1 else t) := by
  refine variableBit_of_hooks v rfl rfl (fun _ => rfl) (fun u w => ?_) (fun b t => ?_)
  · have hook : (eventgenField view).write 0x14 w u =
        if ((eventgenField view).slice w).getLsbD 0 then { u with rest := ((view u).forcedEvent .ascending).1 } else u := rfl
    rw [hook]
    cases ((eventgenField view).slice w).getLsbD 0 with
    | true => exact .inl rfl
    | false => exact .inr ⟨rfl, rfl⟩
  · cases b with
    | true => exact agreeOnPlain_forcedEvent t
    | false => exact ⟨rfl, rfl, rfl, rfl⟩

end Fields

/-- A bit read is its contribution to the word (R92). -/
theorem readFields_bit {view : BankUnit Timer → Timer} {ok : BankUnit Timer → Prop} {f : BankField Timer} {off : Word} {lo : Nat}
    {get : Timer → Bool} {put : Bool → Timer → Timer} (bit : VariableBit view ok f off lo get put) {u : BankUnit Timer} (h : ok u)
    (rest : List (BankField Timer)) (acc : Word) :
    readFields off (f :: rest) acc u = readFields off rest (acc ||| fieldBit (get (view u)) lo) u := by
  rw [readFields, bit.read u h, bit.lo_eq]; rfl

/-- A register that is one full-width field reads the variable (R92). -/
theorem bankRead_varWord {bank : Bank Timer} {view : BankUnit Timer → Timer} {off reset : Word} {get : Timer → Word}
    {put : Word → Timer → Timer} (found : bank.lookup off = some ⟨[varWord view reset get put], none⟩) (u : BankUnit Timer) :
    bankRead bank off u = .ok (get (view u), u) := by
  have word : (0 : Word) ||| ((get (view u) &&& lowMask 32) <<< 0) = get (view u) := by
    rw [word_and_lowMask]; exact BitVec.zero_or.trans (BitVec.shiftLeft_zero _)
  exact (bankRead_some found u).trans (congrArg (fun x => Except.ok (x, u)) word)

/-- A write stores the whole word (R94). -/
theorem bankWrite_varWord {bank : Bank Timer} {view : BankUnit Timer → Timer} {off reset : Word} {get : Timer → Word}
    {put : Word → Timer → Timer} (found : bank.lookup off = some ⟨[varWord view reset get put], none⟩) (w : Word) (u : BankUnit Timer) :
    bankWrite bank off w u = .ok { u with rest := put w (view u) } :=
  (bankWrite_some found w u).trans (congrArg (fun s => Except.ok (BankUnit.mk u.stored (put s (view u))))
    (slice_word (f := varWord view reset get put) rfl rfl w))

/-! ### The bank's read and write over any view -/

/-- The word a mapped register reads (R110 to R122). -/
def readWord (t : Timer) : Reg → Word
  | .control1 => t.readControl1
  | .dier => t.readDier
  | .status => t.readStatus
  | .eventgen => t.readEventgen
  | .counter => t.readCounter
  | .prescaler => t.readPrescaler
  | .autoreload => t.readAutoreload

theorem timerResult_readInstr (t : Timer) (r : Reg) : timerResult t (readInstr r) = .word (readWord t r) := by cases r <;> rfl

section Over

variable {view : BankUnit Timer → Timer} {ok : BankUnit Timer → Prop} {a b c d : BankField Timer} (v : TimerView view ok)
  (four : FourFields view ok a b c d)

include v

theorem variableBit_enabled : VariableBit view ok (varBit view 0 (·.enabled) (fun b t => { t with enabled := b })) 0x00 0 (·.enabled)
    (fun b t => { t with enabled := b }) := variableBit_varBit v _ _ _ fun _ _ => ⟨rfl, rfl, rfl, rfl⟩

theorem variableBit_mode : VariableBit view ok (varBit view 3 (·.mode.bit) (fun b t => { t with mode := modeOfBit b })) 0x00 3 (·.mode.bit)
    (fun b t => { t with mode := modeOfBit b }) := variableBit_varBit v _ _ _ fun _ _ => ⟨rfl, rfl, rfl, rfl⟩

include four

/-- A mapped offset read in the bank is the register's word, and changes nothing of the unit (R92, R99). -/
theorem bankRead_timerBankOver {u : BankUnit Timer} (h : ok u) (r : Reg) :
    bankRead (timerBankOver view a b c d) (offsetOf r) u = .ok (readWord (view u) r, u) := by
  cases r with
  | control1 =>
    refine (bankRead_some (off := 0x00) (r := ⟨_, none⟩) rfl u).trans (congrArg Except.ok ?_)
    rw [readFields_bit (variableBit_enabled v) h, readFields_bit four.updateDisable h, readFields_bit four.updateRequestSource h,
      readFields_bit (variableBit_mode v) h, readFields_bit four.preload h, show (0 : Word) = 0#32 from rfl, BitVec.zero_or]
    rfl
  | dier =>
    refine (bankRead_some (off := 0x0C) (r := ⟨_, none⟩) rfl u).trans (congrArg Except.ok ?_)
    rw [readFields_bit four.interruptEnable h, readFields_bit (variableBit_tagField v) h, show (0 : Word) = 0#32 from rfl, BitVec.zero_or]
    exact congrArg (·, u) BitVec.or_zero
  | status =>
    refine (bankRead_some (off := 0x10) (r := ⟨_, some id⟩) rfl u).trans (congrArg Except.ok ?_)
    rw [readFields_bit (variableBit_statusField v) h, show (0 : Word) = 0#32 from rfl, BitVec.zero_or]
    rfl
  | eventgen =>
    refine (bankRead_some (off := 0x14) (r := ⟨_, none⟩) rfl u).trans (congrArg Except.ok ?_)
    rw [readFields_bit (variableBit_eventgenField v) h]
    rfl
  | counter => exact bankRead_varWord (bank := timerBankOver view a b c d) (off := offsetOf .counter) rfl u
  | prescaler => exact bankRead_varWord (bank := timerBankOver view a b c d) (off := offsetOf .prescaler) rfl u
  | autoreload => exact bankRead_varWord (bank := timerBankOver view a b c d) (off := offsetOf .autoreload) rfl u

/-- A mapped offset written in the bank leaves the register's variables as the register rule says (R94, R99). -/
theorem bankWrite_timerBankOver {u : BankUnit Timer} (h : ok u) (w : Word) (r : Reg) :
    ∃ u', bankWrite (timerBankOver view a b c d) (offsetOf r) w u = .ok u' ∧ view u' = timerAfter (view u) (writeInstr w r) ∧ ok u' := by
  have stored : ∀ x, AgreeOnPlain x (view u) → view { u with rest := x } = x ∧ ok { u with rest := x } := fun x agree =>
    ⟨v.view_rest u x agree, v.ok_rest u x h⟩
  cases r with
  | control1 =>
    obtain ⟨enabled, h1⟩ := (variableBit_enabled v).write u w h
    obtain ⟨updateDisable, h2⟩ := four.updateDisable.write _ w h1
    obtain ⟨updateRequestSource, h3⟩ := four.updateRequestSource.write _ w h2
    obtain ⟨mode, h4⟩ := (variableBit_mode v).write _ w h3
    obtain ⟨preload, h5⟩ := four.preload.write _ w h4
    refine ⟨_, rfl, preload.trans ?_, h5⟩
    rw [mode, updateRequestSource, updateDisable, enabled]
    rfl
  | dier =>
    obtain ⟨enable, h1⟩ := four.interruptEnable.write u w h
    obtain ⟨tag, h2⟩ := (variableBit_tagField v).write _ w h1
    exact ⟨_, rfl, tag.trans enable, h2⟩
  | status =>
    obtain ⟨flag, h1⟩ := (variableBit_statusField v).write u w h
    exact ⟨_, rfl, flag.trans (Timer.writeStatus_eq _ w).symm, h1⟩
  | eventgen =>
    obtain ⟨event, h1⟩ := (variableBit_eventgenField v).write u w h
    refine ⟨_, rfl, event.trans ?_, h1⟩
    exact (apply_ite Prod.fst (w.getLsbD 0 = true) ((view u).forcedEvent .ascending) (view u, [])).symm
  | counter => exact ⟨_, bankWrite_varWord rfl w u, stored ((view u).writeCounter w) ⟨rfl, rfl, rfl, rfl⟩⟩
  | prescaler => exact ⟨_, bankWrite_varWord rfl w u, stored ((view u).writePrescaler w) ⟨rfl, rfl, rfl, rfl⟩⟩
  | autoreload => exact ⟨_, bankWrite_varWord rfl w u, stored ((view u).writeAutoreload w) ⟨rfl, rfl, rfl, rfl⟩⟩

end Over

/-- The two layouts have registers at the seven mapped offsets and nowhere else (R41, R97). -/
theorem lookup_timerBankOver {off : Word} (unmapped : isUnmapped off = true) (view : BankUnit Timer → Timer) (a b c d : BankField Timer) :
    (timerBankOver view a b c d).lookup off = none := by
  rw [List.lookup_eq_none_iff]
  have keys : (timerBankOver view a b c d).map (·.1) = mappedOffsets := rfl
  intro e he
  have mapped : e.1 ∈ mappedOffsets := keys ▸ List.mem_map_of_mem he
  simp only [isUnmapped, Bool.not_eq_true', List.contains_eq_mem, decide_eq_false_iff_not] at unmapped
  exact bne_iff_ne.2 fun same => unmapped (same ▸ mapped)

/-! ### The two layouts -/

/-- TIMER as the rest of the unit, no stored value consulted (R99). -/
theorem timerView_rest (m : Stored) : TimerView (·.rest) (fun u => u.stored = m) := ⟨fun _ _ _ => rfl, fun _ _ h => h⟩

/-- A hook that goes straight to a variable of TIMER as the rest of the unit. -/
theorem variableBit_rest (m : Stored) (off : Word) (lo : Nat) (get : Timer → Bool) (put : Bool → Timer → Timer) :
    VariableBit (·.rest) (fun u => u.stored = m) (varBit (·.rest) lo get put) off lo get put where
  lo_eq := rfl
  read _ _ := Prod.ext (bit_and_lowMask_one _) rfl
  write u w h := ⟨congrArg (put · u.rest) (slice_bit (f := varBit (·.rest) lo get put) rfl w), h⟩

theorem fourFields_hooks (m : Stored) : FourFields (·.rest) (fun u => u.stored = m)
    (varBit (·.rest) 1 (·.updateDisable) (fun b t => { t with updateDisable := b }))
    (varBit (·.rest) 2 (·.updateRequestSource) (fun b t => { t with updateRequestSource := b }))
    (varBit (·.rest) 7 (·.autoReloadPreloadEnable) (fun b t => { t with autoReloadPreloadEnable := b }))
    (varBit (·.rest) 0 (·.interruptEnable) (fun b t => { t with interruptEnable := b })) :=
  ⟨variableBit_rest .., variableBit_rest .., variableBit_rest .., variableBit_rest ..⟩

/-- TIMER with four variables in stored values, which are in R90's range (R99). -/
theorem timerView_plain : TimerView plainView (BankUnit.InRange timerBankPlain) where
  view_rest u x agree := by
    obtain ⟨updateDisable, updateRequestSource, preload, interruptEnable⟩ := agree
    change { x with
      updateDisable := (plainView u).updateDisable
      updateRequestSource := (plainView u).updateRequestSource
      autoReloadPreloadEnable := (plainView u).autoReloadPreloadEnable
      interruptEnable := (plainView u).interruptEnable } = x
    rw [← updateDisable, ← updateRequestSource, ← preload, ← interruptEnable]
  ok_rest _ _ h := h.of_stored rfl

/-- A value in the range of one bit is that bit. -/
theorem eq_bit_of_lt {v : Word} (range : v.toNat < 2) : v = if v.getLsbD 0 then 1 else 0 := by
  rcases Nat.lt_or_eq_of_le (Nat.lt_succ_iff.1 range) with zero | one
  · rw [show v = 0 from BitVec.eq_of_toNat_eq (by simpa using zero)]; rfl
  · rw [show v = 1 from BitVec.eq_of_toNat_eq one]; rfl

/-- A plain field of the bank whose stored value `plainView` shows as a variable is that bit (R99). -/
theorem variableBit_plain {off : Word} {lo : Nat} {get : Timer → Bool} {put : Bool → Timer → Timer} {r : BankRegister Timer}
    (register : (off, r) ∈ timerBankPlain) (field : plainBit lo ∈ r.fields) (shown : ∀ u, get (plainView u) = (u.value (off, lo)).getLsbD 0)
    (stored : ∀ u x, plainView (u.store (off, lo) x) = put (x.getLsbD 0) (plainView u)) :
    VariableBit plainView (BankUnit.InRange timerBankPlain) (plainBit lo) off lo get put where
  lo_eq := rfl
  read u h := by
    rw [shown]; exact congrArg (·, u) (eq_bit_of_lt (h _ register _ field))
  write u w h := by
    refine ⟨(stored u _).trans ?_, BankField.write_inRange timerBankPlain_wf timerBankPlain_hooksKeepRange register field w h⟩
    exact congrArg (put · (plainView u)) (slice_bit (f := plainBit lo) rfl w)

theorem fourFields_plain :
    FourFields plainView (BankUnit.InRange timerBankPlain) (plainBit 1) (plainBit 2) (plainBit 7) (plainBit 0) where
  updateDisable := variableBit_plain (r := ⟨_, none⟩) (.head _) (by simp) (fun _ => rfl) (fun u x => by simp [plainView])
  updateRequestSource := variableBit_plain (r := ⟨_, none⟩) (.head _) (by simp) (fun _ => rfl) (fun u x => by simp [plainView])
  preload := variableBit_plain (r := ⟨_, none⟩) (.head _) (by simp) (fun _ => rfl) (fun u x => by simp [plainView])
  interruptEnable := variableBit_plain (r := ⟨_, none⟩) (.tail _ (.head _)) (by simp) (fun _ => rfl) (fun u x => by simp [plainView])

/-! ### Against the register operations -/

theorem timerResult_writeInstr (t : Timer) (w : Word) (r : Reg) : timerResult t (writeInstr w r) = .done := by cases r <;> rfl

theorem unitOf_writeInstr (w : Word) (r : Reg) : unitOf (writeInstr w r) = .timer ∧ writeInstr w r ≠ .tick := by
  cases r <;> exact ⟨rfl, nofun⟩

theorem isRead_readInstr (r : Reg) : isRead (readInstr r) = true := by cases r <;> rfl

/-- Settles O57: at a mapped offset both layouts answer as the register operation does, TIMER being what each view shows; at any other
both report the offset. -/
theorem bankOfTimerAgreesWithTheRegisterRules : Obligations.BankOfTimerAgreesWithTheRegisterRules := by
  intro s off w m free
  cases found : regAt off with
  | none =>
    have unmapped := (isUnmapped_iff off).2 found
    have hooks : timerBank.lookup off = none := lookup_timerBankOver unmapped ..
    have plain : timerBankPlain.lookup off = none := lookup_timerBankOver unmapped ..
    rw [decodeRead_unmapped unmapped, decodeWrite_unmapped unmapped]
    refine ⟨⟨_, exec_timer_unchanged rfl nofun free rfl, ?_, fun p _ _ => ?_⟩,
      fun _ => ⟨_, exec_timer_unchanged rfl nofun free rfl, ?_, fun p _ _ => ?_⟩⟩
    · rw [bankRead_none hooks]; exact ⟨rfl, rfl⟩
    · rw [bankRead_none plain]; exact ⟨rfl, rfl⟩
    · rw [bankWrite_none hooks]; exact ⟨rfl, rfl⟩
    · rw [bankWrite_none plain]; exact ⟨rfl, rfl⟩
  | some r =>
    rw [decodeRead_mapped found, decodeWrite_mapped found]
    obtain rfl := regAt_some found
    constructor
    · obtain ⟨unit, notTick, same⟩ := isRead_unchanged (isRead_readInstr r)
      obtain ⟨t, run, result, timer, _⟩ := exec_timer_reads unit notTick (same s.timer) free
      rw [timerResult_readInstr] at result
      refine ⟨t, run, ?_, fun p shown range => ?_⟩
      · rw [timerBank, bankRead_timerBankOver (timerView_rest m) (fourFields_hooks m) rfl r]
        exact ⟨result, by rw [timer]⟩
      · rw [timerBankPlain, bankRead_timerBankOver timerView_plain fourFields_plain range r, shown]
        exact ⟨result, shown.trans timer.symm, rfl⟩
    · intro quiet
      obtain ⟨unit, notTick⟩ := unitOf_writeInstr w r
      obtain ⟨t, run, result, timer, _⟩ := exec_timer_completes unit (fun tick => absurd tick notTick) free (fun _ => quiet)
      rw [timerResult_writeInstr] at result
      refine ⟨t, run, ?_, fun p shown range => ?_⟩
      · obtain ⟨u, write, after, stored⟩ :=
          bankWrite_timerBankOver (timerView_rest m) (fourFields_hooks m) (u := ⟨m, s.timer⟩) rfl w r
        rw [timerBank, write]
        exact ⟨result, by rw [timer, ← after, ← stored]⟩
      · obtain ⟨u, write, after, rangeU⟩ := bankWrite_timerBankOver timerView_plain fourFields_plain range w r
        rw [shown] at after
        rw [timerBankPlain, write]
        exact ⟨result, after.trans timer.symm, rangeU⟩

end Sys2Proof.Machine
end
